-- ==== Sys2Proof/Word.lean ====
section
/-! DEFINITION. The word types of the core and the three indexed register files built from them
(00_scope.md R10, R8; 20_memory.md R50). Every value is unsigned. -/

namespace Sys2Proof

/-- 8 bits: an entry of a substitution table, a byte lane of a word (R8). -/
abbrev Byte := BitVec 8

/-- 32 bits: a state word, a key schedule word (R8, R20, R21). -/
abbrev Word := BitVec 32

/-- 128 bits: a Key or Block on a port or in a latch; byte k is bits 8k+7:8k (R52). -/
abbrev Block := BitVec 128

/-- 2 bits: a command code (`cmd`, `op`; R72). -/
abbrev CmdBits := BitVec 2

/-- 6 bits: the micro-program counter (R28, `UPC_WIDTH` of R9). -/
abbrev Upc := BitVec 6

/-- 8 bits: a micro-operation word `{kind, arg}` (R75). -/
abbrev UopWord := BitVec 8

/-- 258 bits: a command word `{cmd, key, din}` (R71). -/
abbrev CmdWord := BitVec 258

/-- The address space `s`: 4 words of 32 bits, indexed 0..3 (R50). -/
abbrev StateWords := Vector Word 4

/-- The address space `w`: 44 words of 32 bits, indexed 0..43 (R50). -/
abbrev Schedule := Vector Word 44

/-- The address space `InvBox`: 256 bytes, indexed 0..255 (R50). -/
abbrev InvTable := Vector Byte 256

end Sys2Proof
end

