-- ==== Sys2Proof/Machine/Operands.lean ====
section
/-! DEFINITION. The operand forms of the data path: byte lanes of a word, words and bytes of a
128-bit bus, the four words of a round key (00_scope.md R11; 20_memory.md R51, R52, R57). -/

namespace Sys2Proof.Machine

/-- `byte(w, j)`: `(w >> 8j) & 0xFF`, bits 8j+7:8j (R11). -/
def byte (w : Word) (j : Fin 4) : Byte := w.extractLsb' (8 * j.val) 8

/-- `pack(b0, b1, b2, b3)`: each byte zero-extended to 32 bits, then shifted to its lane (R11). -/
def pack (b0 b1 b2 b3 : Byte) : Word :=
  b0.setWidth 32 ||| (b1.setWidth 32 <<< 8) ||| (b2.setWidth 32 <<< 16) |||
    (b3.setWidth 32 <<< 24)

/-- Byte k of the sequence on a bus: bits 8k+7:8k (R52). -/
def blockByte (b : Block) (k : Fin 16) : Byte := b.extractLsb' (8 * k.val) 8

/-- Word i of the sequence on a bus, little-endian in the word (R51): equally bits 32i+31:32i
(R52, a law of Laws/Operands.lean). -/
def blockWord (b : Block) (i : Fin 4) : Word :=
  pack (blockByte b ⟨4 * i.val, by omega⟩) (blockByte b ⟨4 * i.val + 1, by omega⟩)
    (blockByte b ⟨4 * i.val + 2, by omega⟩) (blockByte b ⟨4 * i.val + 3, by omega⟩)

/-- `bytesToState`: the four words of a Block (R51, R73, R100). -/
def bytesToState (b : Block) : StateWords := Vector.ofFn fun i => blockWord b i

/-- `stateToBytes`: the Block of four words, word i at bits 32i+31:32i (R73, R101). -/
def stateToBytes (s : StateWords) : Block := s[3] ++ (s[2] ++ (s[1] ++ s[0]))

/-- Word i of round key n: `w[4n + i]` (R57). -/
def roundKeyWord (w : Schedule) (n : Fin 11) (i : Fin 4) : Word := w[4 * n.val + i.val]

end Sys2Proof.Machine
end

