-- ==== Sys2Proof/Config.lean ====
section
/-! DEFINITION. What an implementation fixes and what the spec leaves open (00_scope.md R9,
92_eei_decisions.md "Open parameters"). `UOP_LATENCY` has no definition: no rule depends on it and
the model carries no time (R231, log 4). -/

namespace Sys2Proof.Config

/-- The default of the parameter `INVBOX_AT_RESET` (R9, D9). The parameter itself is the field
`invBoxAtReset` of the state, so that both of its values are in the model (log 2). -/
def invBoxAtReset : Bool := true

/-- The free bytes: what a reset with `INVBOX_AT_RESET = false` leaves in `InvBox` is "any 256
bytes" (R32, R221, U1). Byte number n of all the bytes ever drawn; nothing constrains it. No claim
may rest on a value of it. DESIGN CHOICE of form (log 3). -/
opaque freeByte : Nat → BitVec 8

end Sys2Proof.Config
end

