-- ==== Sys2Proof/Machine/State.lean ====
section
/-! DEFINITION. The state of the core (10_state.md R30, the tuple "complete"), what stands on its
input ports (R31), the reasons a step can stop, and the state after reset (R32). -/

namespace Sys2Proof.Machine

/-- One sample of the input ports before a clock edge (R31). -/
structure Ports where
  /-- `rst`: synchronous reset, active high. -/
  rst : Bool
  /-- `cmd`: command code, `00` for no command. -/
  cmd : CmdBits
  /-- `key`: the Key, byte k at bits 8k+7:8k. -/
  key : Block
  /-- `din`: the input Block, byte k at bits 8k+7:8k. -/
  din : Block
  deriving DecidableEq, Repr

/-- The ports of a host that asks for nothing: `rst = 0`, `cmd = 00` (R174). -/
def Ports.quiet : Ports := { rst := false, cmd := 0, key := 0, din := 0 }

/-- The state. The first ten fields are the tuple of R30; the last three are the model's own
(log 1, log 2, log 3). -/
structure State where
  /-- `s[0..3]`, the state words (R20). -/
  s : StateWords
  /-- `w[0..43]`, the key schedule (R21, R22). -/
  w : Schedule
  /-- `InvBox[0..255]`, the inverse substitution table (R23). -/
  invBox : InvTable
  /-- `kreg`, the Key sampled at accept (R25). -/
  kreg : Block
  /-- `dreg`, the input Block sampled at accept (R25). -/
  dreg : Block
  /-- `dout`, the result of the last completed `ENC` or `DEC` (R26). -/
  dout : Block
  /-- `op`, the command in progress or last completed (R27). -/
  op : CmdBits
  /-- `upc`, the micro-program counter (R28). -/
  upc : Upc
  /-- `busy` (R29). -/
  busy : Bool
  /-- `done` (R29). -/
  done : Bool
  /-- What the host puts on the input ports at the coming edges, the next edge first; past the end
  it asks for nothing. DESIGN CHOICE (log 1). -/
  inputs : List Ports
  /-- The parameter `INVBOX_AT_RESET` (R9); no step writes it. DESIGN CHOICE (log 2). -/
  invBoxAtReset : Bool
  /-- How many free bytes resets have drawn so far. DESIGN CHOICE (log 3). -/
  draws : Nat
  deriving DecidableEq, Repr

/-- The reasons to stop with a fault: none. "The core raises no exception, trap, fault or error
indication of any kind" (R200). -/
inductive Fault where
  deriving DecidableEq, Repr

/-- The reasons a step or a meaning has no next state. -/
inductive Refusal where
  /-- Raised by an arm of `exec` whose instruction has no meaning yet; no arm does. Safe. -/
  | notModelled (mnemonic : String)
  /-- Raised by the fetch on a reserved uop word: "A model's uop decoder should refuse them" (R81,
  R200). No microprogram holds one. Safe: the model stops where the hardware has no behaviour. -/
  | reservedUop (word : UopWord)
  /-- Raised by `execArk` on n in 11..15, a term that no word decodes to (R81, R136). Safe. -/
  | reservedRound (n : BitVec 4)
  /-- Raised by the fetch when `busy = 1` with `op = 00`, which "cannot occur" (R172; log 5). Safe:
  no run reaches it. -/
  | noMicroprogram
  /-- Raised by the fetch when `upc` is past the last uop of the microprogram (R28 gives its values;
  log 5). Safe: no run reaches it. -/
  | upcPastEnd (upc : Upc)
  deriving DecidableEq, Repr

/-- The tuple of R32 after a reset event, for either value of `INVBOX_AT_RESET`: built by the reset
sequence when true, else 256 freshly drawn bytes (R220, R221). -/
def State.afterReset (invBoxAtReset : Bool) (draws : Nat) (inputs : List Ports) : State where
  s := Vector.replicate 4 0
  w := Vector.replicate 44 0
  invBox := if invBoxAtReset then builtInvBox else drawnInvBox draws
  kreg := 0
  dreg := 0
  dout := 0
  op := 0
  upc := 0
  busy := false
  done := false
  inputs := inputs
  invBoxAtReset := invBoxAtReset
  draws := if invBoxAtReset then draws else draws + 256

/-- The machine right after reset, with the default `INVBOX_AT_RESET` (R32, R9); nothing on the
ports yet (log 1). -/
def State.reset : State := State.afterReset Config.invBoxAtReset 0 []

end Sys2Proof.Machine
end

