-- ==== Sys2Proof/Machine/Codec.lean ====
section
/-! DEFINITION. The byte/word codec: `LDS` and `STS` (40_codec_gf_sbox.md R100, R101). -/

namespace Sys2Proof.Machine

/-- `LDS`: `s[i]` from `dreg` (R100). -/
def execLds (s : State) : Host.Outcome State Fault Refusal :=
  .next { s with s := bytesToState s.dreg }

/-- `STS`: `dout` from `s` (R101). -/
def execSts (s : State) : Host.Outcome State Fault Refusal :=
  .next { s with dout := stateToBytes s.s }

end Sys2Proof.Machine
end

