-- ==== Sys2Proof/Syntax.lean ====
section
/-! DEFINITION. The instructions: one constructor per row of spec/opcode_table.json, on the two
levels of 30_encoding.md R70, the words that carry them (R71, R75), and the pseudo-instructions of
R83. -/

namespace Sys2Proof

/-- The instructions of both levels (R70, R72, R76). All four commands carry the `key` and `din`
fields of their 258-bit word, also `NOP` and `INIT`, which have no use for them (R71; log 13). -/
inductive Instr where
  /-- `NOP`, command 00 (R174). -/
  | nop (key din : Block)
  /-- `ENC`, command 01 (R175). -/
  | enc (key din : Block)
  /-- `DEC`, command 10 (R176). -/
  | dec (key din : Block)
  /-- `INIT`, command 11 (R178). -/
  | init (key din : Block)
  /-- `KEXP`, uop 0x10 (R153). -/
  | kexp
  /-- `LDS`, uop 0x20 (R100). -/
  | lds
  /-- `STS`, uop 0x30 (R101). -/
  | sts
  /-- `SUB`, uop 0x40 (R130). -/
  | sub
  /-- `SHR`, uop 0x50 (R132). -/
  | shr
  /-- `MIX`, uop 0x60 (R134). -/
  | mix
  /-- `ARK n`, uop 0x70 + n; n is the 4-bit `arg` field, unsigned, 0..10 when well formed
  (R136, R74). -/
  | ark (n : BitVec 4)
  /-- `IBLD`, uop 0x80 (R109). -/
  | ibld
  /-- `ISUB`, uop 0xC0 (R131). -/
  | isub
  /-- `ISHR`, uop 0xD0 (R133). -/
  | ishr
  /-- `IMIX`, uop 0xE0 (R135). -/
  | imix
  deriving DecidableEq, Repr

/-- Level 1 of R70, what the host presents on the ports; the other instructions are level 2, what
the sequencer executes. -/
def Instr.isCommand : Instr → Bool
  | .nop _ _ => true
  | .enc _ _ => true
  | .dec _ _ => true
  | .init _ _ => true
  | .kexp => false
  | .lds => false
  | .sts => false
  | .sub => false
  | .shr => false
  | .mix => false
  | .ark _ => false
  | .ibld => false
  | .isub => false
  | .ishr => false
  | .imix => false

/-- A word of one of the two instruction formats: CMDW, 258 bits (R71), or UOPW, 8 bits (R75). -/
inductive Code where
  | command (w : CmdWord)
  | uop (w : UopWord)
  deriving DecidableEq, Repr

/-- The pseudo-instructions of R83; each stands for a list of uops and has no encoding. -/
inductive Pseudo where
  /-- `FROUND r`, r in 1..9. -/
  | fround (r : BitVec 4)
  /-- `FFINAL`. -/
  | ffinal
  /-- `IROUND r`, r in 9..1. -/
  | iround (r : BitVec 4)
  /-- `IFINAL`. -/
  | ifinal
  deriving DecidableEq, Repr

end Sys2Proof
end

