-- ==== Sys2Proof/WellFormed.lean ====
section
/-! DEFINITION. Which terms of the syntax are instructions of the hardware. -/

namespace Sys2Proof

/-- The one constraint on operands: the round-key number of `ARK n` is 0..10 (R74, R81). -/
def Instr.wellFormed : Instr → Bool
  | .nop _ _ => true
  | .enc _ _ => true
  | .dec _ _ => true
  | .init _ _ => true
  | .kexp => true
  | .lds => true
  | .sts => true
  | .sub => true
  | .shr => true
  | .mix => true
  | .ark n => decide (n.toNat ≤ 10)
  | .ibld => true
  | .isub => true
  | .ishr => true
  | .imix => true

/-- The round number of `FROUND r` and `IROUND r` is 1..9 (R83). -/
def Pseudo.wellFormed : Pseudo → Bool
  | .fround r => decide (1 ≤ r.toNat ∧ r.toNat ≤ 9)
  | .ffinal => true
  | .iround r => decide (1 ≤ r.toNat ∧ r.toNat ≤ 9)
  | .ifinal => true

end Sys2Proof
end

