-- ==== Sys2Proof/Decode.lean ====
section
/-! DEFINITION. The decoder, total and rejecting by name, and after it the encoder, both from the
tables of 30_encoding.md R71, R72, R75, R76, R81. -/

namespace Sys2Proof

/-- Why a string of bytes or a word is no instruction (R81; log 6, log 9). -/
inductive DecodeError where
  /-- A uop word of kind 0x0, 0x9, 0xA, 0xB or 0xF (R81). -/
  | reservedKind (kind : BitVec 4)
  /-- An `ARK` word with `arg` in 11..15 (R81). -/
  | reservedRound (arg : BitVec 4)
  /-- A word of a defined kind other than `ARK` with `arg` not 0 (R81). -/
  | reservedArg (kind arg : BitVec 4)
  /-- Neither one byte (a uop word) nor 33 bytes (a command word): no format of R70. -/
  | badLength (n : Nat)
  /-- 33 bytes whose top six bits, which no command word has, are not 0 (log 9). -/
  | badPadding
  deriving DecidableEq, Repr

/-- The field `kind` of a uop word, bits 7:4 (R75). -/
def uopKind (w : UopWord) : BitVec 4 := w.extractLsb' 4 4

/-- The field `arg` of a uop word, bits 3:0 (R75). -/
def uopArg (w : UopWord) : BitVec 4 := w.extractLsb' 0 4

/-- An operation that has no operand: its `arg` must be 0 (R75, R81). -/
def noArg (w : UopWord) (i : Instr) : Except DecodeError Instr :=
  if uopArg w = 0 then .ok i else .error (.reservedArg (uopKind w) (uopArg w))

/-- `ARK n`, n in 0..10 (R74, R81). -/
def arkArg (w : UopWord) : Except DecodeError Instr :=
  if (uopArg w).toNat ≤ 10 then .ok (.ark (uopArg w)) else .error (.reservedRound (uopArg w))

/-- A uop word (R75, the kind codes of R76, the reserved words of R81). -/
def decodeUop (w : UopWord) : Except DecodeError Instr :=
  match (uopKind w).toNat with
  | 0x1 => noArg w .kexp
  | 0x2 => noArg w .lds
  | 0x3 => noArg w .sts
  | 0x4 => noArg w .sub
  | 0x5 => noArg w .shr
  | 0x6 => noArg w .mix
  | 0x7 => arkArg w
  | 0x8 => noArg w .ibld
  | 0xC => noArg w .isub
  | 0xD => noArg w .ishr
  | 0xE => noArg w .imix
  | _ => .error (.reservedKind (uopKind w))

/-- The field `cmd` of a command word, bits 257:256 (R71). -/
def cmdCode (w : CmdWord) : CmdBits := w.extractLsb' 256 2

/-- The field `key` of a command word, bits 255:128 (R71). -/
def cmdKey (w : CmdWord) : Block := w.extractLsb' 128 128

/-- The field `din` of a command word, bits 127:0 (R71). -/
def cmdDin (w : CmdWord) : Block := w.extractLsb' 0 128

/-- The command of a code and two operands; all four codes are defined, none is reserved (R72). -/
def commandOf (code : CmdBits) (key din : Block) : Instr :=
  match code.toNat with
  | 0 => .nop key din
  | 1 => .enc key din
  | 2 => .dec key din
  | _ => .init key din

/-- A command word (R71, R72). -/
def decodeCommand (w : CmdWord) : Instr := commandOf (cmdCode w) (cmdKey w) (cmdDin w)

/-- A word of either format. -/
def decode : Code → Except DecodeError Instr
  | .command w => .ok (decodeCommand w)
  | .uop w => decodeUop w

/-- n bytes of a number, the least significant first. -/
def bytesOfNat : Nat → Nat → List Byte
  | 0, _ => []
  | n + 1, v => BitVec.ofNat 8 v :: bytesOfNat n (v / 256)

/-- The number whose bytes these are, the least significant first. -/
def natOfBytes : List Byte → Nat
  | [] => 0
  | b :: bs => b.toNat + 256 * natOfBytes bs

/-- A word laid out in bytes: one byte is a uop word; 33 bytes, byte k at bits 8k+7:8k as on the
ports (R52), are a command word whose six bits above bit 257 are 0. DESIGN CHOICE (log 9). -/
def codeOfBytes (bs : List Byte) : Except DecodeError Code :=
  if bs.length = 1 then .ok (.uop (BitVec.ofNat 8 (natOfBytes bs)))
  else if bs.length = 33 then
    if natOfBytes bs < 2 ^ 258 then .ok (.command (BitVec.ofNat 258 (natOfBytes bs)))
    else .error .badPadding
  else .error (.badLength bs.length)

/-- The decoder over bytes, total on every string of bytes. -/
def decodeBytes (bs : List Byte) : Except DecodeError Instr :=
  match codeOfBytes bs with
  | .ok c => decode c
  | .error e => .error e

/-! The encoder. -/

/-- A uop word from its two fields (R75). -/
def uopWord (kind arg : BitVec 4) : UopWord := kind ++ arg

/-- A command word from its three fields (R71). -/
def cmdWord (code : CmdBits) (key din : Block) : CmdWord := code ++ (key ++ din)

/-- The word of an instruction (R72, R76). -/
def encode : Instr → Code
  | .nop key din => .command (cmdWord 0 key din)
  | .enc key din => .command (cmdWord 1 key din)
  | .dec key din => .command (cmdWord 2 key din)
  | .init key din => .command (cmdWord 3 key din)
  | .kexp => .uop (uopWord 0x1 0)
  | .lds => .uop (uopWord 0x2 0)
  | .sts => .uop (uopWord 0x3 0)
  | .sub => .uop (uopWord 0x4 0)
  | .shr => .uop (uopWord 0x5 0)
  | .mix => .uop (uopWord 0x6 0)
  | .ark n => .uop (uopWord 0x7 n)
  | .ibld => .uop (uopWord 0x8 0)
  | .isub => .uop (uopWord 0xC 0)
  | .ishr => .uop (uopWord 0xD 0)
  | .imix => .uop (uopWord 0xE 0)

/-- The bytes of a word: 1 for a uop word, 33 for a command word (log 9). -/
def bytesOfCode : Code → List Byte
  | .command w => bytesOfNat 33 w.toNat
  | .uop w => bytesOfNat 1 w.toNat

/-- The encoder over bytes. -/
def encodeBytes (i : Instr) : List Byte := bytesOfCode (encode i)

/-- Which format a row of spec/opcode_table.json has, in whole bytes: a row of at most 8 bits is a
uop word, a longer one (258 bits) a command word. -/
def tableBytes (nbits : Nat) : Nat := if nbits ≤ 8 then 1 else 33

/-- The instruction the decoder reads from a word numbered as spec/opcode_table.json numbers it. -/
def decodeTableWord (nbits w : Nat) : Option Instr :=
  if w < 256 ^ tableBytes nbits then
    match decodeBytes (bytesOfNat (tableBytes nbits) w) with
    | .ok i => some i
    | .error _ => none
  else none

end Sys2Proof
end

