-- ==== Sys2Proof/Machine/Flags.lean ====
section
/-! DEFINITION. The two flags, `busy` and `done` (10_state.md R29). No data operation sets either;
only accept, completion and reset do. -/

namespace Sys2Proof.Machine

/-- At accept: `busy <- 1`, `done <- 0` (R29, R171). -/
def State.flagAccepted (s : State) : State := { s with busy := true, done := false }

/-- When the last uop of a command has executed: `busy <- 0`, `done <- 1` (R29, R173). -/
def State.flagCompleted (s : State) : State := { s with busy := false, done := true }

end Sys2Proof.Machine
end

