-- ==== Sys2Proof/Machine/Microprogram.lean ====
section
/-! DEFINITION. The constant microprogram tables (30_encoding.md R77 to R80), the commands that run
them (R72, R172), and the expansions of the pseudo-instructions (R83). -/

namespace Sys2Proof.Machine

/-- `UROM_ENC`, the byte list of R78; index k is the value of `upc` (R77). -/
def uromEnc : List UopWord :=
  [0x10, 0x20, 0x70] ++
  [0x40, 0x50, 0x60, 0x71] ++ [0x40, 0x50, 0x60, 0x72] ++ [0x40, 0x50, 0x60, 0x73] ++
  [0x40, 0x50, 0x60, 0x74] ++ [0x40, 0x50, 0x60, 0x75] ++ [0x40, 0x50, 0x60, 0x76] ++
  [0x40, 0x50, 0x60, 0x77] ++ [0x40, 0x50, 0x60, 0x78] ++ [0x40, 0x50, 0x60, 0x79] ++
  [0x40, 0x50, 0x7A] ++ [0x30]

/-- `UROM_DEC`, the byte list of R79. -/
def uromDec : List UopWord :=
  [0x10, 0x20, 0x7A] ++
  [0xD0, 0xC0, 0x79, 0xE0] ++ [0xD0, 0xC0, 0x78, 0xE0] ++ [0xD0, 0xC0, 0x77, 0xE0] ++
  [0xD0, 0xC0, 0x76, 0xE0] ++ [0xD0, 0xC0, 0x75, 0xE0] ++ [0xD0, 0xC0, 0x74, 0xE0] ++
  [0xD0, 0xC0, 0x73, 0xE0] ++ [0xD0, 0xC0, 0x72, 0xE0] ++ [0xD0, 0xC0, 0x71, 0xE0] ++
  [0xD0, 0xC0, 0x70] ++ [0x30]

/-- `UROM_INIT` (R80). -/
def uromInit : List UopWord := [0x80]

/-- The microprogram that `op` selects (R172); `op = 00` selects none. -/
def urom (op : CmdBits) : List UopWord :=
  match op.toNat with
  | 0 => []
  | 1 => uromEnc
  | 2 => uromDec
  | _ => uromInit

/-- The index of the last uop of a command: 42 for `ENC` and `DEC`, 0 for `INIT` (R173). For
`op = 00`, which has no microprogram, 0. -/
def lastIndex (op : CmdBits) : Nat :=
  match op.toNat with
  | 0 => 0
  | 1 => 42
  | 2 => 42
  | _ => 0

/-- The uops a pseudo-instruction stands for (R83). -/
def Pseudo.expand : Pseudo → List Instr
  | .fround r => [.sub, .shr, .mix, .ark r]
  | .ffinal => [.sub, .shr, .ark 10]
  | .iround r => [.ishr, .isub, .ark r, .imix]
  | .ifinal => [.ishr, .isub, .ark 0]

/-- Where a uop word stands in a microprogram: the first index of it, if any. -/
def indexIn (word : UopWord) : List UopWord → Option Nat
  | [] => none
  | x :: xs => if x = word then some 0 else (indexIn word xs).map (· + 1)

/-- The command and index at which the sequencer fetches a given uop word; every word that is not
reserved stands in one of the three tables (R78 to R80). -/
def uopHome (word : UopWord) : Option (CmdBits × Nat) :=
  match indexIn word uromEnc, indexIn word uromDec, indexIn word uromInit with
  | some k, _, _ => some (1, k)
  | none, some k, _ => some (2, k)
  | none, none, some k => some (3, k)
  | none, none, none => none

end Sys2Proof.Machine
end

