-- ==== Sys2Proof/Machine/Ops.lean ====
section
/-! DEFINITION. The operations the instructions and the sequencer share: accept (43_cipher_driver.md
R170, R171), the reset event (70_reset_and_hazards.md R220, R221), the fetch of a uop (R172), the
bookkeeping after one (R173), the ports (10_state.md R31). The core takes no exception and returns from none (60_exceptions.md
R200, R205, R206), so there is no operation for either; the reset event is the only thing that ends
a command early. -/

namespace Sys2Proof.Machine

/-- The ports before the coming edge. -/
def State.ports (s : State) : Ports := s.inputs.headD Ports.quiet

/-- What the host can observe: the three output ports (R182). -/
structure Outputs where
  dout : Block
  busy : Bool
  done : Bool
  deriving DecidableEq, Repr

/-- The output ports show the registers of the same names (R26, R29, R31). -/
def State.outputs (s : State) : Outputs := { dout := s.dout, busy := s.busy, done := s.done }

/-- The accept action (R171): command and operands are latched, the counter cleared, the flags set;
`s`, `w`, `InvBox` and `dout` keep their values. -/
def State.accept (s : State) (code : CmdBits) (key din : Block) : State :=
  State.flagAccepted { s with op := code, kreg := key, dreg := din, upc := 0 }

/-- A command on the ports is accepted exactly when `busy = 0`; else it is not accepted, not queued
and not remembered (R170, R177; log 7). -/
def State.present (s : State) (code : CmdBits) (key din : Block) :
    Host.Outcome State Fault Refusal :=
  if s.busy then .next s else .next (s.accept code key din)

/-- The reset event (R220): every element takes its value of R32. The coming samples of the ports
and the parameter are the host's and stay. -/
def State.resetEvent (s : State) : State := State.afterReset s.invBoxAtReset s.draws s.inputs

/-- The edge has passed: its sample of the ports is used up (log 1). -/
def State.nextEdge (s : State) : State := { s with inputs := s.inputs.tail }

/-- The uop at `upc` in the microprogram that `op` selects (R172, R77). -/
def State.fetch (s : State) : Except Refusal Instr :=
  match (urom s.op)[s.upc.toNat]? with
  | some word =>
    match decode (.uop word) with
    | .ok u => .ok u
    | .error _ => .error (.reservedUop word)
  | none => if s.op = 0 then .error .noMicroprogram else .error (.upcPastEnd s.upc)

/-- The bookkeeping after a uop (R173): at the last index the command completes, else `upc`
advances by 1. -/
def State.bookkeep (s : State) : State :=
  if s.upc.toNat = lastIndex s.op then State.flagCompleted { s with upc := 0 }
  else { s with upc := s.upc + 1 }

/-- The bookkeeping follows a uop that was performed (R172). -/
def retire : Host.Outcome State Fault Refusal → Host.Outcome State Fault Refusal
  | .next s => .next s.bookkeep
  | .fault f => .fault f
  | .refused r => .refused r

/-- A state whose next step fetches and runs a given uop: an idle port sample with `rst = 0`, and
the sequencer at the place of a microprogram where the word stands. A reserved word stands nowhere
and leaves the state as it is (log 10). -/
def State.placeUop (s : State) (word : UopWord) : State :=
  match uopHome word with
  | some (op, k) =>
    { s with op := op, upc := BitVec.ofNat 6 k, busy := true,
             inputs := Ports.quiet :: s.inputs.tail }
  | none => s

/-- A state whose next step takes a given command from the ports: the core idle, `rst = 0`, the
three fields of the word on the three ports (R71; log 10). -/
def State.placeCommand (s : State) (word : CmdWord) : State :=
  { s with busy := false,
           inputs := { rst := false, cmd := cmdCode word, key := cmdKey word,
                       din := cmdDin word } :: s.inputs.tail }

end Sys2Proof.Machine
end

