-- ==== Sys2Proof/Machine/Command.lean ====
section
/-! DEFINITION. The four commands, as the core takes them from its ports (43_cipher_driver.md R170,
R171, R174 to R178). `ENC`, `DEC` and `INIT` begin with the accept action; the uops of their
microprograms then run one a step (Machine/Step.lean). -/

namespace Sys2Proof.Machine

/-- `NOP`: nothing is accepted, no state changes; `key` and `din` are ignored (R174, R170). -/
def execNop (_key _din : Block) (s : State) : Host.Outcome State Fault Refusal := .next s

/-- `ENC` (R175): accept with `op = 01`. -/
def execEnc (key din : Block) (s : State) : Host.Outcome State Fault Refusal :=
  s.present 1 key din

/-- `DEC` (R176): accept with `op = 10`. -/
def execDec (key din : Block) (s : State) : Host.Outcome State Fault Refusal :=
  s.present 2 key din

/-- `INIT` (R178): accept with `op = 11`; `key` and `din` are latched and not used. -/
def execInit (key din : Block) (s : State) : Host.Outcome State Fault Refusal :=
  s.present 3 key din

end Sys2Proof.Machine
end

