-- ==== Sys2Proof/Machine/InverseBox.lean ====
section
/-! DEFINITION. `IBLD`, the build of the inverse substitution table (40_codec_gf_sbox.md R109). -/

namespace Sys2Proof.Machine

/-- `IBLD`: `InvBox[SBox[x]] <- x` for every x, whatever the table held (R109). -/
def execIbld (s : State) : Host.Outcome State Fault Refusal :=
  .next { s with invBox := buildInvBox s.invBox }

end Sys2Proof.Machine
end

