-- ==== Sys2Proof/Machine/Galois.lean ====
section
/-! DEFINITION. Multiplication in GF(2^8) modulo x^8 + x^4 + x^3 + x + 1 (40_codec_gf_sbox.md R103
to R105; 90_conflicts.md C6): the loop that the transforms use, and the polynomial product that
defines it. -/

namespace Sys2Proof.Machine

/-- Multiply a byte by x and reduce: shift left, drop bit 8, XOR 0x1B when bit 7 was set (R104). -/
def xtime (a : Byte) : Byte := (a <<< 1) ^^^ (if a.getLsbD 7 then 0x1B else 0)

/-- The loop of R104, `n` iterations from the values `a`, `b`, `p`. -/
def mulLoop : Nat → Byte → Byte → Byte → Byte
  | 0, _, _, p => p
  | n + 1, a, b, p => mulLoop n (xtime a) (b >>> 1) (if b.getLsbD 0 then p ^^^ a else p)

/-- `mul(a, b)` by the eight iterations of R104. PRESUMED loop body (G2, log 11); the function is
fixed by R103, see `mulPoly`. -/
def mul (a b : Byte) : Byte := mulLoop 8 a b 0

/-- The product of two bytes read as polynomials over GF(2), bit k the coefficient of x^k (R103):
the sum, which is XOR, of `a * x^k` over the bits k of `b`. -/
def polyMul (a b : Byte) : BitVec 16 :=
  (List.range 8).foldl
    (fun p k => if b.getLsbD k then p ^^^ (a.setWidth 16 <<< k) else p) 0

/-- Division with remainder by the field polynomial 0x11B: the degrees 14 down to 8 are cleared in
turn by subtracting, which is XOR, a multiple of 0x11B (R103). -/
def polyMod (p : BitVec 16) : BitVec 16 :=
  (List.range 7).foldl
    (fun p k => if p.getLsbD (14 - k) then p ^^^ (0x11B#16 <<< (6 - k)) else p) p

/-- `mul(a, b)` by its definition: the polynomial product modulo 0x11B (R103). -/
def mulPoly (a b : Byte) : Byte := (polyMod (polyMul a b)).setWidth 8

end Sys2Proof.Machine
end

