-- ==== Sys2Proof/Machine/Round.lean ====
section
/-! DEFINITION. The seven round transforms (41_round_transforms.md R130 to R136), each a function of
the four old words (R12, R137), and the uops that apply them to `s`. -/

namespace Sys2Proof.Machine

/-- A function of bytes applied to the four lanes of a word (R130, R131, R151). -/
def mapBytes (f : Byte → Byte) (x : Word) : Word :=
  pack (f (byte x 0)) (f (byte x 1)) (f (byte x 2)) (f (byte x 3))

/-- SubBytes (R130). -/
def subBytes (s : StateWords) : StateWords := Vector.ofFn fun i => mapBytes sbox s[i]

/-- InvSubBytes by the contents of `InvBox`, built or not (R131, R110). -/
def invSubBytes (t : InvTable) (s : StateWords) : StateWords :=
  Vector.ofFn fun i => mapBytes (readInvBox t) s[i]

/-- ShiftRows: lane j of word i from lane j of word (i + j) mod 4 (R132; 90_conflicts.md C3). -/
def shiftRows (s : StateWords) : StateWords :=
  Vector.ofFn fun i =>
    pack (byte s[(i.val + 0) % 4] 0) (byte s[(i.val + 1) % 4] 1)
      (byte s[(i.val + 2) % 4] 2) (byte s[(i.val + 3) % 4] 3)

/-- InvShiftRows: lane j of word i from lane j of word (i + (4 - j) mod 4) mod 4 (R133;
90_conflicts.md C5). -/
def invShiftRows (s : StateWords) : StateWords :=
  Vector.ofFn fun i =>
    pack (byte s[(i.val + 0) % 4] 0) (byte s[(i.val + 3) % 4] 1)
      (byte s[(i.val + 2) % 4] 2) (byte s[(i.val + 1) % 4] 3)

/-- One column through the circulant matrix with first row 2, 3, 1, 1 (R134). PRESUMED orientation
(G3, log 11). -/
def mixColumn (x : Word) : Word :=
  let b0 := byte x 0
  let b1 := byte x 1
  let b2 := byte x 2
  let b3 := byte x 3
  pack (mul 2 b0 ^^^ mul 3 b1 ^^^ b2 ^^^ b3)
    (b0 ^^^ mul 2 b1 ^^^ mul 3 b2 ^^^ b3)
    (b0 ^^^ b1 ^^^ mul 2 b2 ^^^ mul 3 b3)
    (mul 3 b0 ^^^ b1 ^^^ b2 ^^^ mul 2 b3)

/-- One column through the circulant matrix with first row 14, 11, 13, 9 (R135). PRESUMED
orientation (G4, log 11). -/
def invMixColumn (x : Word) : Word :=
  let b0 := byte x 0
  let b1 := byte x 1
  let b2 := byte x 2
  let b3 := byte x 3
  pack (mul 14 b0 ^^^ mul 11 b1 ^^^ mul 13 b2 ^^^ mul 9 b3)
    (mul 9 b0 ^^^ mul 14 b1 ^^^ mul 11 b2 ^^^ mul 13 b3)
    (mul 13 b0 ^^^ mul 9 b1 ^^^ mul 14 b2 ^^^ mul 11 b3)
    (mul 11 b0 ^^^ mul 13 b1 ^^^ mul 9 b2 ^^^ mul 14 b3)

/-- MixColumns (R134). -/
def mixColumns (s : StateWords) : StateWords := Vector.ofFn fun i => mixColumn s[i]

/-- InvMixColumns (R135). -/
def invMixColumns (s : StateWords) : StateWords := Vector.ofFn fun i => invMixColumn s[i]

/-- AddRoundKey n (R136). -/
def addRoundKey (w : Schedule) (n : Fin 11) (s : StateWords) : StateWords :=
  Vector.ofFn fun i => s[i] ^^^ roundKeyWord w n i

/-- The state words become `v`, and nothing else changes (R137). -/
def State.withWords (s : State) (v : StateWords) : State := { s with s := v }

/-- `SUB` (R130). -/
def execSub (s : State) : Host.Outcome State Fault Refusal := .next (s.withWords (subBytes s.s))

/-- `ISUB` (R131). -/
def execIsub (s : State) : Host.Outcome State Fault Refusal :=
  .next (s.withWords (invSubBytes s.invBox s.s))

/-- `SHR` (R132). -/
def execShr (s : State) : Host.Outcome State Fault Refusal := .next (s.withWords (shiftRows s.s))

/-- `ISHR` (R133). -/
def execIshr (s : State) : Host.Outcome State Fault Refusal :=
  .next (s.withWords (invShiftRows s.s))

/-- `MIX` (R134). -/
def execMix (s : State) : Host.Outcome State Fault Refusal := .next (s.withWords (mixColumns s.s))

/-- `IMIX` (R135). -/
def execImix (s : State) : Host.Outcome State Fault Refusal :=
  .next (s.withWords (invMixColumns s.s))

/-- `ARK n` (R136). n in 11..15 is reserved and has no meaning (R81; log 6). -/
def execArk (n : BitVec 4) (s : State) : Host.Outcome State Fault Refusal :=
  if h : n.toNat ≤ 10 then .next (s.withWords (addRoundKey s.w ⟨n.toNat, by omega⟩ s.s))
  else .refused (.reservedRound n)

end Sys2Proof.Machine
end

