-- ==== Sys2Proof/Machine/KeySchedule.lean ====
section
/-! DEFINITION. The key schedule expander (42_key_schedule.md R150 to R155) and `KEXP`. -/

namespace Sys2Proof.Machine

/-- `RotWord` (R150). -/
def rotWord (x : Word) : Word := ((x &&& 0xFF) <<< 24) ||| ((x >>> 8) &&& 0x00FFFFFF)

/-- `SubWord`, always by the forward box (R151). -/
def subWord (x : Word) : Word := mapBytes sbox x

/-- `Rcon[k]`, the ten round constants (R152). -/
def rcon (k : Fin 10) : Byte :=
  #v[0x01#8, 0x02, 0x04, 0x08, 0x10, 0x20, 0x40, 0x80, 0x1B, 0x36][k]

/-- `temp` of the loop of R153 for index i = j + 4, from `w[i-1]`. -/
def expandTemp (j : Fin 40) (x : Word) : Word :=
  if (j.val + 4) % 4 = 0 then
    subWord (rotWord x) ^^^ (rcon ⟨(j.val + 4) / 4 - 1, by omega⟩).setWidth 32
  else x

/-- One iteration of the loop of R153, for index i = j + 4: `w[i] <- w[i-4] ^ temp`. -/
def expandStep (w : Schedule) (j : Fin 40) : Schedule :=
  w.set (j.val + 4) (w[j.val] ^^^ expandTemp j w[j.val + 3])

/-- `w[0..3]` packed from the key; the other words, all written by the loop before they are read,
start as 0 (R153; log 18). -/
def keyWords (key : Block) : Schedule :=
  Vector.ofFn fun i => if h : i.val < 4 then blockWord key ⟨i.val, h⟩ else 0

/-- `expandKey`: the 44 words of a key, i = 4..43 in increasing order (R153, R181). -/
def expandKey (key : Block) : Schedule := (List.finRange 40).foldl expandStep (keyWords key)

/-- `KEXP`: `w[0..43]` from `kreg` (R153). -/
def execKexp (s : State) : Host.Outcome State Fault Refusal :=
  .next { s with w := expandKey s.kreg }

end Sys2Proof.Machine
end

