-- ==== Sys2Proof/Machine/Dispatch.lean ====
section
/-! DEFINITION. One arm per constructor of `Instr`. -/

namespace Sys2Proof.Machine

/-- The meaning of an instruction on its own: for a command what the core does with it on its ports,
for a uop its effect without the bookkeeping that the step adds (30_encoding.md R70; log 8). -/
def exec (i : Instr) (s : State) : Host.Outcome State Fault Refusal :=
  match i with
  | .nop key din => Sys2Proof.Machine.execNop key din s
  | .enc key din => Sys2Proof.Machine.execEnc key din s
  | .dec key din => Sys2Proof.Machine.execDec key din s
  | .init key din => Sys2Proof.Machine.execInit key din s
  | .kexp => Sys2Proof.Machine.execKexp s
  | .lds => Sys2Proof.Machine.execLds s
  | .sts => Sys2Proof.Machine.execSts s
  | .sub => Sys2Proof.Machine.execSub s
  | .shr => Sys2Proof.Machine.execShr s
  | .mix => Sys2Proof.Machine.execMix s
  | .ark n => Sys2Proof.Machine.execArk n s
  | .ibld => Sys2Proof.Machine.execIbld s
  | .isub => Sys2Proof.Machine.execIsub s
  | .ishr => Sys2Proof.Machine.execIshr s
  | .imix => Sys2Proof.Machine.execImix s

end Sys2Proof.Machine
end

