-- ==== Sys2Proof/Machine/Sequencer.lean ====
section
/-! DEFINITION. The sequencer: what happens at one clock edge (43_cipher_driver.md R170, R172, R173,
R177; 60_exceptions.md R204). -/

namespace Sys2Proof.Machine

/-- Without reset, a busy core performs the uop at `upc` and then its bookkeeping, and does not look
at `cmd`, `key`, `din` (R172, R173, R177). -/
def stepBusy (s : State) : Host.Outcome State Fault Refusal :=
  match s.fetch with
  | .ok u => retire (exec u s.nextEdge)
  | .error r => .refused r

/-- Without reset, an idle core takes the command on its ports (R170, R171, R174). -/
def stepIdle (s : State) : Host.Outcome State Fault Refusal :=
  exec (decodeCommand (cmdWord s.ports.cmd s.ports.key s.ports.din)) s.nextEdge

/-- One clock edge, in the priority of R204: reset, else a step of a busy core, else accept, else
nothing changes. -/
def clockEdge (s : State) : Host.Outcome State Fault Refusal :=
  if s.ports.rst then .next s.nextEdge.resetEvent
  else if s.busy then stepBusy s
  else stepIdle s

end Sys2Proof.Machine
end

