-- ==== Sys2Proof/Machine/Step.lean ====
section
/-! DEFINITION. The step of the machine, one clock edge, and where its next instruction comes
from. -/

namespace Sys2Proof.Machine

/-- One step: one clock edge (R204), at which at most one uop runs (log 4). -/
def step (s : State) : Host.Outcome State Fault Refusal := clockEdge s

/-- The state in which the next step runs exactly the instruction of a table word: a uop word is
run by the sequencer from its microprogram, a command word is presented on the ports (log 10). -/
def State.withFetchWord (s : State) (nbits w : Nat) : State :=
  if nbits ≤ 8 then s.placeUop (BitVec.ofNat 8 w) else s.placeCommand (BitVec.ofNat 258 w)

end Sys2Proof.Machine
end

