-- ==== Sys2Proof/Machine/Cipher.lean ====
section
/-! DEFINITION. The transaction-level meaning of `ENC` and `DEC` on values, no state
(43_cipher_driver.md R181). The step function does not use it; the claims compare the two. -/

namespace Sys2Proof.Machine

/-- A full forward round r, 1..9: `ARK r . MIX . SHR . SUB` (R181). -/
def forwardRound (w : Schedule) (s : StateWords) (r : Fin 11) : StateWords :=
  addRoundKey w r (mixColumns (shiftRows (subBytes s)))

/-- A full inverse round r, 9..1: `IMIX . ARK r . ISUB . ISHR` (R181). -/
def inverseRound (t : InvTable) (w : Schedule) (s : StateWords) (r : Fin 11) : StateWords :=
  invMixColumns (addRoundKey w r (invSubBytes t (invShiftRows s)))

/-- The forward cipher on state words (R175, R181). -/
def encryptWords (w : Schedule) (s : StateWords) : StateWords :=
  addRoundKey w 10 (shiftRows (subBytes
    ([1, 2, 3, 4, 5, 6, 7, 8, 9].foldl (forwardRound w) (addRoundKey w 0 s))))

/-- The inverse cipher on state words, by the contents of a table (R176, R181). -/
def decryptWords (t : InvTable) (w : Schedule) (s : StateWords) : StateWords :=
  addRoundKey w 0 (invSubBytes t (invShiftRows
    ([9, 8, 7, 6, 5, 4, 3, 2, 1].foldl (inverseRound t w) (addRoundKey w 10 s))))

/-- `encryptBlock(K, B)` (R181). -/
def encryptBlock (key block : Block) : Block :=
  stateToBytes (encryptWords (expandKey key) (bytesToState block))

/-- What `DEC` computes with given contents of `InvBox` (R110, U1). -/
def decryptBlockWith (t : InvTable) (key block : Block) : Block :=
  stateToBytes (decryptWords t (expandKey key) (bytesToState block))

/-- `decryptBlock(K, C)`, by the built table (R181). -/
def decryptBlock (key block : Block) : Block := decryptBlockWith builtInvBox key block

end Sys2Proof.Machine
end

