-- ==== Sys2Proof/Safety.lean ====
section
/-! DEFINITION. What counts as a safe run, in the terms the claims use: the control invariant of
10_state.md R28, R29, R34, when a core is idle, when its table is built, when the host asserts no
reset. The core raises nothing (60_exceptions.md R200), so a safe run is one that never stops. -/

namespace Sys2Proof.Machine

/-- The core is idle exactly when `busy = 0` (R170). -/
abbrev State.Idle (s : State) : Prop := s.busy = false

/-- `InvBox` holds the built table (R23, R108). -/
abbrev State.Built (s : State) : Prop := s.invBox = builtInvBox

/-- The host keeps `rst = 0` at the next n edges. -/
abbrev State.NoReset (s : State) (n : Nat) : Prop := ∀ p ∈ s.inputs.take n, p.rst = false

/-- The host keeps `rst = 0` and `cmd = 00` at the next n edges. -/
abbrev State.NoCommand (s : State) (n : Nat) : Prop :=
  ∀ p ∈ s.inputs.take n, p.rst = false ∧ p.cmd = 0

/-- While a command is in progress: it is one that was accepted, so `op` is not 00 (R170, R172);
`upc` is one of its indices (R28); `done` is 0 (R29). -/
abbrev State.InProgress (s : State) : Prop :=
  s.op ≠ 0 ∧ s.upc.toNat ≤ lastIndex s.op ∧ s.done = false

/-- The control invariant: a busy core has a command in progress; an idle one has `upc = 0` (R28,
R173); before the first accept after a reset nothing is done (R27, R29); and with
`INVBOX_AT_RESET = true` the table is built (R34, R221). -/
abbrev State.Inv (s : State) : Prop :=
  (s.busy = true → s.InProgress) ∧ (s.busy = false → s.upc = 0) ∧
    (s.op = 0 → s.done = false) ∧ (s.invBoxAtReset = true → s.Built)

/-- Two states that differ at most in what the host will put on the ports. -/
abbrev State.SameButInputs (s t : State) : Prop :=
  { s with inputs := [] } = { t with inputs := [] }

end Sys2Proof.Machine
end

