-- ==== Sys2Proof/Certificates/Slice0/Obligations.lean ====
section
/-! DEFINITION. The statements for the provers. Each docstring names the rules of spec/ the statement
formalises; a frame is said by an equation of whole states, a record update that names what the
instruction writes. -/

open Sys2Proof Sys2Proof.Machine

/-! ## Encodings -/

/-- Words written out from the encodings of R71, R72, R75, R76 decode to their instructions (a sanity
check; the command words are those of 95_test_vectors.md V1). -/
def Obligations.SpecWordsDecode : Prop :=
  decode (.uop 0b00010000) = .ok .kexp ∧ decode (.uop 0b00100000) = .ok .lds ∧
  decode (.uop 0b01010000) = .ok .shr ∧ decode (.uop 0b01111010) = .ok (.ark 10) ∧
  decode (.uop 0b10000000) = .ok .ibld ∧ decode (.uop 0b11100000) = .ok .imix ∧
  decode (.command 0x1_0f0e0d0c0b0a09080706050403020100_ffeeddccbbaa99887766554433221100) =
    .ok (.enc 0x0f0e0d0c0b0a09080706050403020100 0xffeeddccbbaa99887766554433221100) ∧
  decode (.command 0x2_0f0e0d0c0b0a09080706050403020100_5ac5b47080b7cdd830047b6ad8e0c469) =
    .ok (.dec 0x0f0e0d0c0b0a09080706050403020100 0x5ac5b47080b7cdd830047b6ad8e0c469) ∧
  decodeTableWord 8 0x70 = some (.ark 0) ∧
  decodeTableWord 258 0x30000000000000000000000000000000000000000000000000000000000000000 =
    some (.init 0 0)

/-- The kind codes of R76: the word of every uop; bit 7 is 1 exactly for the operations of the
inverse direction or table; `ISUB`, `ISHR`, `IMIX` have their forward counterparts' codes with that
bit set. -/
def Obligations.UopKindCodes : Prop :=
  (decode (.uop 0x10) = .ok .kexp ∧ decode (.uop 0x20) = .ok .lds ∧
   decode (.uop 0x30) = .ok .sts ∧ decode (.uop 0x40) = .ok .sub ∧
   decode (.uop 0x50) = .ok .shr ∧ decode (.uop 0x60) = .ok .mix ∧
   decode (.uop 0x80) = .ok .ibld ∧ decode (.uop 0xC0) = .ok .isub ∧
   decode (.uop 0xD0) = .ok .ishr ∧ decode (.uop 0xE0) = .ok .imix) ∧
  (∀ n : BitVec 4, n.toNat ≤ 10 → decode (.uop (0x70 + n.setWidth 8)) = .ok (.ark n)) ∧
  (∀ (w : UopWord) (u : Instr), decode (.uop w) = .ok u →
    (w.getLsbD 7 = true ↔ u ∈ [.ibld, .isub, .ishr, .imix])) ∧
  (∀ p ∈ [(Instr.sub, Instr.isub), (.shr, .ishr), (.mix, .imix)],
    ∃ w : UopWord, encode p.1 = .uop w ∧ encode p.2 = .uop (w ||| 0x80)) ∧
  (∀ w : UopWord, w.extractLsb' 4 4 ∈ [0x0, 0x9, 0xA, 0xB, 0xF] →
    ∃ e, decode (.uop w) = .error e)

/-- The reserved words of R81: no command word, exactly the uop words named there; the decoder
refuses them and no microprogram holds one. -/
def Obligations.ReservedUopWordsAreRefused : Prop :=
  (∀ w : CmdWord, ∃ i, decode (.command w) = .ok i) ∧
  (∀ w : UopWord, (∃ e, decode (.uop w) = .error e) ↔
    (w.extractLsb' 4 4 ∈ [0x0, 0x9, 0xA, 0xB, 0xF] ∨
      (w.extractLsb' 4 4 = 0x7 ∧ 11 ≤ (w.extractLsb' 0 4).toNat) ∨
      (w.extractLsb' 4 4 ≠ 0x7 ∧ w.extractLsb' 0 4 ≠ 0))) ∧
  (∀ (op : CmdBits) (w : UopWord), w ∈ urom op → ∃ u, decode (.uop w) = .ok u)

/-- Decode and encode agree, over bytes and in both directions: no bit of an encoding is dropped and
none is ignored. The layout of a command word in 33 bytes is the model's choice (log 9). -/
def Obligations.DecodeUndoesEncode : Prop :=
  (∀ i : Instr, i.wellFormed = true → decodeBytes (encodeBytes i) = .ok i) ∧
  (∀ (bs : List Byte) (i : Instr), decodeBytes bs = .ok i →
    i.wellFormed = true ∧ encodeBytes i = bs)

/-- The microprogram tables, entry by entry (R78, R79, R80). -/
def Obligations.MicroprogramTables : Prop :=
  (uromEnc.length = 43 ∧
   uromEnc[0]? = some 0x10 ∧ uromEnc[1]? = some 0x20 ∧ uromEnc[2]? = some 0x70 ∧
   (∀ r ∈ [1, 2, 3, 4, 5, 6, 7, 8, 9],
     uromEnc[4 * r - 1]? = some 0x40 ∧ uromEnc[4 * r]? = some 0x50 ∧
     uromEnc[4 * r + 1]? = some 0x60 ∧ uromEnc[4 * r + 2]? = some (BitVec.ofNat 8 (0x70 + r))) ∧
   uromEnc[39]? = some 0x40 ∧ uromEnc[40]? = some 0x50 ∧ uromEnc[41]? = some 0x7A ∧
   uromEnc[42]? = some 0x30) ∧
  (uromDec.length = 43 ∧
   uromDec[0]? = some 0x10 ∧ uromDec[1]? = some 0x20 ∧ uromDec[2]? = some 0x7A ∧
   (∀ r ∈ [9, 8, 7, 6, 5, 4, 3, 2, 1],
     uromDec[39 - 4 * r]? = some 0xD0 ∧ uromDec[40 - 4 * r]? = some 0xC0 ∧
     uromDec[41 - 4 * r]? = some (BitVec.ofNat 8 (0x70 + r)) ∧
     uromDec[42 - 4 * r]? = some 0xE0) ∧
   uromDec[39]? = some 0xD0 ∧ uromDec[40]? = some 0xC0 ∧ uromDec[41]? = some 0x70 ∧
   uromDec[42]? = some 0x30) ∧
  uromInit = [0x80] ∧
  urom 1 = uromEnc ∧ urom 2 = uromDec ∧ urom 3 = uromInit ∧
  (∀ s : State, s.invBoxAtReset = true →
    exec .ibld s = .next { s with invBox := s.resetEvent.invBox })

/-- With the pseudo-instructions of R83, `UROM_ENC` reads `KEXP; LDS; ARK 0; FROUND 1; …; FROUND 9;
FFINAL; STS` and `UROM_DEC` reads `KEXP; LDS; ARK 10; IROUND 9; …; IROUND 1; IFINAL; STS`. -/
def Obligations.PseudoInstructionsSpellTheMicroprograms : Prop :=
  uromEnc.map (fun w => decode (.uop w)) =
    (([Instr.kexp, .lds, .ark 0] ++
      ([1, 2, 3, 4, 5, 6, 7, 8, 9].flatMap fun r => Pseudo.expand (.fround r)) ++
      Pseudo.expand .ffinal ++ [Instr.sts]).map Except.ok) ∧
  uromDec.map (fun w => decode (.uop w)) =
    (([Instr.kexp, .lds, .ark 10] ++
      ([9, 8, 7, 6, 5, 4, 3, 2, 1].flatMap fun r => Pseudo.expand (.iround r)) ++
      Pseudo.expand .ifinal ++ [Instr.sts]).map Except.ok)

/-! ## Tables and field arithmetic -/

/-- The forward box is a permutation without a fixed point and without an opposite one (R107). The
entries of the table are the spec's from general knowledge (G1, log 11). -/
def Obligations.ForwardBoxIsAPermutation : Prop :=
  Function.Bijective sbox ∧ (∀ x : Byte, sbox x ≠ x) ∧ (∀ x : Byte, sbox x ≠ x ^^^ 0xFF)

/-- Entry x of the forward box is the affine image of the multiplicative inverse v of x under `mul`,
with 0 mapped to 0 (R106; the construction is the spec's from general knowledge, G1, log 11). -/
def Obligations.ForwardBoxIsTheAffineImageOfTheInverse : Prop :=
  ∀ x : Byte, ∃ v : Byte, ((x = 0 ∧ v = 0) ∨ mul x v = 1) ∧
    sbox x = v ^^^ v.rotateLeft 1 ^^^ v.rotateLeft 2 ^^^ v.rotateLeft 3 ^^^ v.rotateLeft 4 ^^^ 0x63

/-- The built `InvBox` is the unique table with `InvBox[SBox[x]] = x` for all x, and also
`SBox[InvBox[x]] = x` (R108). -/
def Obligations.BuiltBoxIsTheUniqueInverse : Prop :=
  (∀ x : Byte, builtInvBox[(sbox x).toNat]'(sbox x).isLt = x) ∧
  (∀ x : Byte, sbox (builtInvBox[x.toNat]'x.isLt) = x) ∧
  (∀ t : InvTable, (∀ x : Byte, t[(sbox x).toNat]'(sbox x).isLt = x) → t = builtInvBox)

/-- The eight iterations of R104 compute the product of the two polynomials over GF(2) reduced modulo
x^8 + x^4 + x^3 + x + 1 (R103). -/
def Obligations.MulIsThePolynomialProduct : Prop := ∀ a b : Byte, mul a b = mulPoly a b

/-- The laws of R105: identity, zero, commutativity, associativity, distributivity over XOR, one
inverse for each non-zero byte, and the constants of the column transforms by repeated doubling. -/
def Obligations.FieldMultiplicationLaws : Prop :=
  (∀ x : Byte, mul x 1 = x ∧ mul x 0 = 0) ∧
  (∀ a b : Byte, mul a b = mul b a) ∧
  (∀ a b c : Byte, mul (mul a b) c = mul a (mul b c)) ∧
  (∀ a b c : Byte, mul a (b ^^^ c) = mul a b ^^^ mul a c) ∧
  (∀ a : Byte, a ≠ 0 → ∃ b : Byte, mul a b = 1 ∧ ∀ c : Byte, mul a c = 1 → c = b) ∧
  (∀ v : Byte,
    mul 2 v = ((v <<< 1) &&& 0xFF) ^^^ (if v.getLsbD 7 then 0x1B else 0) ∧
    mul 3 v = mul 2 v ^^^ v ∧ mul 4 v = mul 2 (mul 2 v) ∧ mul 8 v = mul 2 (mul 4 v) ∧
    mul 9 v = mul 8 v ^^^ v ∧ mul 11 v = mul 8 v ^^^ mul 2 v ^^^ v ∧
    mul 13 v = mul 8 v ^^^ mul 4 v ^^^ v ∧ mul 14 v = mul 8 v ^^^ mul 4 v ^^^ mul 2 v)

/-! ## Key schedule -/

/-- The helpers of the key expansion (R150, R151). -/
def Obligations.RotWordAndSubWord : Prop :=
  (∀ x : Word, rotWord x = ((x &&& 0xFF) <<< 24) ||| ((x >>> 8) &&& 0x00FFFFFF)) ∧
  (∀ x : Word, rotWord x = x.rotateRight 8) ∧
  (∀ b0 b1 b2 b3 : Byte, rotWord (pack b0 b1 b2 b3) = pack b1 b2 b3 b0) ∧
  (∀ (x : Word) (j : Fin 4), byte (subWord x) j = sbox (byte x j)) ∧
  (∀ x : Word, subWord x =
    pack (sbox (byte x 0)) (sbox (byte x 1)) (sbox (byte x 2)) (sbox (byte x 3)))

/-- The ten round constants: the values, their doubling, and that XOR with one changes only byte
position 0 of a word (R152). -/
def Obligations.RoundConstants : Prop :=
  ([0, 1, 2, 3, 4, 5, 6, 7, 8, 9] : List (Fin 10)).map rcon =
    [0x01, 0x02, 0x04, 0x08, 0x10, 0x20, 0x40, 0x80, 0x1B, 0x36] ∧
  (∀ (k : Nat) (h : k + 1 < 10), rcon ⟨k + 1, h⟩ = mul 2 (rcon ⟨k, by omega⟩)) ∧
  (∀ (x : Word) (k : Fin 10),
    byte (x ^^^ (rcon k).setWidth 32) 0 = byte x 0 ^^^ rcon k ∧
    ∀ j : Fin 4, j ≠ 0 → byte (x ^^^ (rcon k).setWidth 32) j = byte x j)

/-- `KEXP` writes the 44 words of R153 from `kreg` and nothing else. -/
def Obligations.KexpExpandsTheKey : Prop :=
  decode (.uop 0x10) = .ok .kexp ∧ uromEnc[0]? = some 0x10 ∧ uromDec[0]? = some 0x10 ∧
  ∀ s : State, ∃ v : Schedule, exec .kexp s = .next { s with w := v } ∧
    (∀ i : Fin 4,
      v[i.val] = s.kreg.extractLsb' (32 * i.val) 32 ∧
      v[i.val] = pack (s.kreg.extractLsb' (8 * (4 * i.val)) 8)
        (s.kreg.extractLsb' (8 * (4 * i.val + 1)) 8) (s.kreg.extractLsb' (8 * (4 * i.val + 2)) 8)
        (s.kreg.extractLsb' (8 * (4 * i.val + 3)) 8)) ∧
    (∀ (i : Nat) (h : 4 ≤ i ∧ i < 44),
      v[i] = v[i - 4] ^^^
        (if i % 4 = 0 then subWord (rotWord v[i - 1]) ^^^ (rcon ⟨i / 4 - 1, by omega⟩).setWidth 32
         else v[i - 1]))

/-- The schedule is a function of the key: two states with the same `kreg` get the same 44 words,
whatever else they hold (R154, R22). -/
def Obligations.KeyExpansionIsDeterministic : Prop :=
  ∀ s s' : State, s.kreg = s'.kreg →
    ∃ v : Schedule, exec .kexp s = .next { s with w := v } ∧ exec .kexp s' = .next { s' with w := v }

/-! ## The codec, the table build, the round transforms -/

/-- `LDS`: word i of `s` is bits 32i+31:32i of `dreg`, byte j of it byte 4i + j of the Block, and
nothing else changes (R100). -/
def Obligations.LdsLoadsDreg : Prop :=
  decode (.uop 0x20) = .ok .lds ∧
  ∀ s : State, ∃ v : StateWords, exec .lds s = .next { s with s := v } ∧
    (∀ i : Fin 4, v[i.val] = s.dreg.extractLsb' (32 * i.val) 32 ∧
      v[i.val] = pack (s.dreg.extractLsb' (8 * (4 * i.val)) 8)
        (s.dreg.extractLsb' (8 * (4 * i.val + 1)) 8) (s.dreg.extractLsb' (8 * (4 * i.val + 2)) 8)
        (s.dreg.extractLsb' (8 * (4 * i.val + 3)) 8)) ∧
    (∀ i j : Fin 4, byte v[i.val] j = s.dreg.extractLsb' (8 * (4 * i.val + j.val)) 8)

/-- `STS`: byte 4i + j of `dout` is byte j of word i, nothing else changes; it is the last uop of
`ENC` and `DEC` (R101). -/
def Obligations.StsStoresDout : Prop :=
  decode (.uop 0x30) = .ok .sts ∧ uromEnc.getLast? = some 0x30 ∧ uromDec.getLast? = some 0x30 ∧
  ∀ s : State, ∃ v : Block, exec .sts s = .next { s with dout := v } ∧
    (∀ i j : Fin 4, v.extractLsb' (8 * (4 * i.val + j.val)) 8 = byte s.s[i.val] j) ∧
    (∀ i : Fin 4, v.extractLsb' (32 * i.val) 32 = s.s[i.val])

/-- `LDS` and `STS` are mutually inverse (R102). -/
def Obligations.CodecRoundTrip : Prop :=
  (∀ s t u : State, exec .lds s = .next t → exec .sts t = .next u → u.dout = s.dreg) ∧
  (∀ s t u : State, exec .sts s = .next t → exec .lds { t with dreg := t.dout } = .next u →
    u.s = s.s)

/-- `SUB`: every byte of every word is replaced by its forward-box image, nothing else changes
(R130). -/
def Obligations.SubReplacesEveryByte : Prop :=
  decode (.uop 0x40) = .ok .sub ∧
  ∀ s : State, ∃ v : StateWords, exec .sub s = .next { s with s := v } ∧
    ∀ i j : Fin 4, byte v[i.val] j = sbox (byte s.s[i.val] j)

/-- `ISUB`: the same by `InvBox`, whatever the table holds, built or not (R131, R110). -/
def Obligations.IsubReplacesEveryByteByInvBox : Prop :=
  decode (.uop 0xC0) = .ok .isub ∧
  ∀ s : State, ∃ v : StateWords, exec .isub s = .next { s with s := v } ∧
    ∀ i j : Fin 4,
      byte v[i.val] j = s.invBox[(byte s.s[i.val] j).toNat]'(byte s.s[i.val] j).isLt

/-- `SHR`: `out[i]_j = in[(i + j) mod 4]_j`, nothing else changes; four equal words stay, and four
times `SHR` is the identity (R132). -/
def Obligations.ShrShiftsRows : Prop :=
  decode (.uop 0x50) = .ok .shr ∧
  ∀ s : State, ∃ v : StateWords, exec .shr s = .next { s with s := v } ∧
    (∀ i j : Fin 4, byte v[i.val] j = byte s.s[(i.val + j.val) % 4] j) ∧
    (∀ x : Word, s.s = Vector.replicate 4 x → v = s.s) ∧
    shiftRows (shiftRows (shiftRows v)) = s.s

/-- `ISHR`: `out[i]_j = in[(i + (4 - j) mod 4) mod 4]_j`, nothing else changes; it undoes `SHR`;
corner cases as for `SHR` (R133). -/
def Obligations.IshrShiftsRowsBack : Prop :=
  decode (.uop 0xD0) = .ok .ishr ∧
  ∀ s : State, ∃ v : StateWords, exec .ishr s = .next { s with s := v } ∧
    (∀ i j : Fin 4, byte v[i.val] j = byte s.s[(i.val + (4 - j.val) % 4) % 4] j) ∧
    exec .shr { s with s := v } = .next s ∧
    (∀ x : Word, s.s = Vector.replicate 4 x → v = s.s) ∧
    invShiftRows (invShiftRows (invShiftRows v)) = s.s

/-- `MIX`: each word through the 2, 3, 1, 1 circulant matrix, nothing else changes. The orientation of
the matrix is a reading the spec marks as its own, from general knowledge (R134, G3, log 11). -/
def Obligations.MixMixesEachColumn : Prop :=
  decode (.uop 0x60) = .ok .mix ∧
  ∀ s : State, ∃ v : StateWords, exec .mix s = .next { s with s := v } ∧
    ∀ i : Fin 4, ∀ b0 b1 b2 b3 : Byte, s.s[i.val] = pack b0 b1 b2 b3 →
      byte v[i.val] 0 = mul 2 b0 ^^^ mul 3 b1 ^^^ b2 ^^^ b3 ∧
      byte v[i.val] 1 = b0 ^^^ mul 2 b1 ^^^ mul 3 b2 ^^^ b3 ∧
      byte v[i.val] 2 = b0 ^^^ b1 ^^^ mul 2 b2 ^^^ mul 3 b3 ∧
      byte v[i.val] 3 = mul 3 b0 ^^^ b1 ^^^ b2 ^^^ mul 2 b3

/-- `IMIX`: each word through the 14, 11, 13, 9 circulant matrix, nothing else changes. The orientation
of the matrix is a reading the spec marks as its own, from general knowledge (R135, G4, log 11). -/
def Obligations.ImixMixesEachColumnBack : Prop :=
  decode (.uop 0xE0) = .ok .imix ∧
  ∀ s : State, ∃ v : StateWords, exec .imix s = .next { s with s := v } ∧
    ∀ i : Fin 4, ∀ b0 b1 b2 b3 : Byte, s.s[i.val] = pack b0 b1 b2 b3 →
      byte v[i.val] 0 = mul 14 b0 ^^^ mul 11 b1 ^^^ mul 13 b2 ^^^ mul 9 b3 ∧
      byte v[i.val] 1 = mul 9 b0 ^^^ mul 14 b1 ^^^ mul 11 b2 ^^^ mul 13 b3 ∧
      byte v[i.val] 2 = mul 13 b0 ^^^ mul 9 b1 ^^^ mul 14 b2 ^^^ mul 11 b3 ∧
      byte v[i.val] 3 = mul 11 b0 ^^^ mul 13 b1 ^^^ mul 9 b2 ^^^ mul 14 b3

/-- `ARK n`, n in 0..10: word i of `s` is XORed with word 4n + i of the schedule, nothing else
changes (R136). -/
def Obligations.ArkAddsRoundKey : Prop :=
  ∀ (n : BitVec 4) (hn : n.toNat ≤ 10),
    decode (.uop (0x70 + n.setWidth 8)) = .ok (.ark n) ∧
    ∀ s : State, ∃ v : StateWords, exec (.ark n) s = .next { s with s := v } ∧
      ∀ i : Fin 4, v[i.val] = s.s[i.val] ^^^ s.w[4 * n.toNat + i.val]

/-- The form of `ARK` with n in 11..15 is reserved: no word decodes to it and it has no meaning
(R81, R136; log 6). -/
def Obligations.ArkReservedRoundIsRefused : Prop :=
  ∀ n : BitVec 4, 11 ≤ n.toNat →
    (∀ w : UopWord, decode (.uop w) ≠ .ok (.ark n)) ∧
    ∀ s : State, exec (.ark n) s = .refused (.reservedRound n)

/-- `IBLD`: afterwards `InvBox[SBox[x]] = x` for all x, whatever the table held; nothing else
changes; a second `IBLD` changes nothing; it is the only entry of `UROM_INIT` and what a reset with
`INVBOX_AT_RESET = true` runs (R109). -/
def Obligations.IbldBuildsTheInverseTable : Prop :=
  decode (.uop 0x80) = .ok .ibld ∧ uromInit = [0x80] ∧
  (∀ s : State, ∃ v : InvTable, exec .ibld s = .next { s with invBox := v } ∧
    (∀ x : Byte, v[(sbox x).toNat]'(sbox x).isLt = x) ∧
    exec .ibld { s with invBox := v } = .next { s with invBox := v }) ∧
  (∀ s : State, s.invBoxAtReset = true →
    exec .ibld s = .next { s with invBox := s.resetEvent.invBox })

/-- The seven round transforms write `s` and nothing else, and their results depend on `s` and their
own operands only: `ISUB` on `InvBox`, `ARK n` on round key n (R137). -/
def Obligations.RoundTransformsArePure : Prop :=
  ∀ u ∈ [Instr.sub, .isub, .shr, .ishr, .mix, .imix] ++
      ([0, 1, 2, 3, 4, 5, 6, 7, 8, 9, 10].map fun n => Instr.ark n),
    ∀ s s' : State, s.s = s'.s → (u = .isub → s.invBox = s'.invBox) →
      (∀ n : BitVec 4, u = .ark n → ∀ i : Fin 4,
        s.w[4 * n.toNat + i.val]? = s'.w[4 * n.toNat + i.val]?) →
      ∃ v : StateWords, exec u s = .next { s with s := v } ∧ exec u s' = .next { s' with s := v }

/-- The inverse pairs of R138, and that the substitutions commute with the shifts. -/
def Obligations.InversePairs : Prop :=
  (∀ p ∈ [(Instr.shr, Instr.ishr), (.ishr, .shr), (.mix, .imix), (.imix, .mix)],
    ∀ s t : State, exec p.1 s = .next t → exec p.2 t = .next s) ∧
  (∀ n : BitVec 4, ∀ s t : State, exec (.ark n) s = .next t → exec (.ark n) t = .next s) ∧
  (∀ s t : State, s.Built →
    (exec .sub s = .next t → exec .isub t = .next s) ∧
    (exec .isub s = .next t → exec .sub t = .next s)) ∧
  (∀ s t t' : State, exec .sub s = .next t → exec .shr s = .next t' →
    exec .shr t = exec .sub t') ∧
  (∀ s t t' : State, exec .isub s = .next t → exec .ishr s = .next t' →
    exec .ishr t = exec .isub t')

/-- `MIX` and `IMIX` are linear over XOR, word by word, and leave a word of four equal bytes
unchanged (the corner cases of R134, R135; the matrices are log 11's). -/
def Obligations.MixColumnsIsLinear : Prop :=
  (∀ x y : Word, mixColumn (x ^^^ y) = mixColumn x ^^^ mixColumn y) ∧
  (∀ x y : Word, invMixColumn (x ^^^ y) = invMixColumn x ^^^ invMixColumn y) ∧
  (∀ b : Byte, mixColumn (pack b b b b) = pack b b b b ∧
    invMixColumn (pack b b b b) = pack b b b b)

/-! ## Commands and the sequencer -/

/-- `NOP` changes nothing, in any state; an idle core with `cmd = 00` on its ports keeps every
element, whatever `key` and `din` carry (R174). -/
def Obligations.NopChangesNothing : Prop :=
  (∀ key din : Block, decode (.command (0#2 ++ (key ++ din))) = .ok (.nop key din)) ∧
  (∀ (s : State) (key din : Block), exec (.nop key din) s = .next s) ∧
  (∀ s : State, s.ports.rst = false → s.Idle → s.ports.cmd = 0 →
    step s = .next { s with inputs := s.inputs.tail })

/-- The accept action of an idle core: `op`, `kreg`, `dreg` latched, `upc` 0, `busy` 1, `done` 0, and
nothing else changes, for all three commands (R171). -/
def Obligations.AcceptLatchesTheCommand : Prop :=
  ∀ (s : State) (key din : Block), s.Idle →
    exec (.enc key din) s = .next { s with
      op := 1, kreg := key, dreg := din, upc := 0, busy := true, done := false } ∧
    exec (.dec key din) s = .next { s with
      op := 2, kreg := key, dreg := din, upc := 0, busy := true, done := false } ∧
    exec (.init key din) s = .next { s with
      op := 3, kreg := key, dreg := din, upc := 0, busy := true, done := false }

/-- A command that meets a busy core is not accepted, not queued and not remembered (R170, R177; the
model's reading of a command taken alone, log 7). -/
def Obligations.CommandsAreDroppedWhileBusy : Prop :=
  ∀ (s : State) (key din : Block), s.busy = true →
    exec (.enc key din) s = .next s ∧ exec (.dec key din) s = .next s ∧
    exec (.init key din) s = .next s

/-- A step runs the decoded instruction. Without reset, a busy core fetches the word at `upc` of the
microprogram of `op`, and the step is `exec` of the decoded uop at that state (its port sample used
up), which answers a next state, then the bookkeeping; an idle core's step is `exec` of the command word on its ports (R172,
R170, R204). -/
def Obligations.StepRunsTheDecodedInstruction : Prop :=
  (∀ (s : State) (word : UopWord) (u : Instr), s.ports.rst = false → s.busy = true →
    (urom s.op)[s.upc.toNat]? = some word → decode (.uop word) = .ok u →
    ∃ t, exec u { s with inputs := s.inputs.tail } = .next t ∧ step s = .next t.bookkeep) ∧
  (∀ (s : State) (i : Instr), s.ports.rst = false → s.Idle →
    decode (.command (s.ports.cmd ++ (s.ports.key ++ s.ports.din))) = .ok i →
    step s = exec i { s with inputs := s.inputs.tail })

/-- The bookkeeping after a uop: with `last` 42 for `ENC` and `DEC` and 0 for `INIT`, at `last` the
command completes (`upc` 0, `busy` 0, `done` 1), else `upc` advances by 1; nothing else of what the
uop left changes (R173). -/
def Obligations.BookkeepingAfterAUop : Prop :=
  ∀ (s t : State) (u : Instr) (last : Nat), s.ports.rst = false → s.busy = true →
    s.fetch = .ok u → exec u { s with inputs := s.inputs.tail } = .next t →
    ((s.op = 1 ∨ s.op = 2) ∧ last = 42 ∨ s.op = 3 ∧ last = 0) →
    (s.upc.toNat = last →
      step s = .next { t with upc := 0, busy := false, done := true }) ∧
    (s.upc.toNat ≠ last → step s = .next { t with upc := s.upc + 1 })

/-- At one clock edge, in priority order: reset; else a step of a busy core, which ignores `cmd`,
`key` and `din`; else accept; else nothing changes (R204). -/
def Obligations.PriorityOfEvents : Prop :=
  (∀ (s : State), s.ports.rst = true →
    step s = .next (State.afterReset s.invBoxAtReset s.draws s.inputs.tail)) ∧
  (∀ (s : State) (p q : Ports) (rest : List Ports), s.busy = true →
    p.rst = false → q.rst = false →
    step { s with inputs := p :: rest } = step { s with inputs := q :: rest }) ∧
  (∀ (s : State) (u : Instr), s.ports.rst = false → s.busy = true → s.fetch = .ok u →
    step s = retire (exec u { s with inputs := s.inputs.tail })) ∧
  (∀ (s : State), s.ports.rst = false → s.Idle → s.ports.cmd ≠ 0 →
    step s = .next { s with
      op := s.ports.cmd, kreg := s.ports.key, dreg := s.ports.din, upc := 0, busy := true,
      done := false, inputs := s.inputs.tail }) ∧
  (∀ (s : State), s.ports.rst = false → s.Idle → s.ports.cmd = 0 →
    step s = .next { s with inputs := s.inputs.tail })

/-- While a command is in progress the ports `cmd`, `key`, `din` are not looked at: two runs that
differ only in what the host puts on them stay equal in everything else, for as long as the core was
busy before each edge, the last uop's edge included (R177). -/
def Obligations.InputsAreNotLookedAtWhileBusy : Prop :=
  ∀ (n : Nat) (s s' t : State), s.SameButInputs s' → s.NoReset n → s'.NoReset n →
    (∀ k < n, ∀ u, core.run k s = .next u → u.busy = true) →
    core.run n s = .next t →
    ∃ t', core.run n s' = .next t' ∧ t.SameButInputs t'

/-- A command is accepted at an edge exactly when `rst = 0`, `busy = 0` and `cmd` is not 00: then it is
the accept action; else an idle core stays idle and, unless reset, `op` and the latches keep their
values. An idle core that is given no command keeps every element for any number of edges (R170). -/
def Obligations.IdleCoreHoldsItsState : Prop :=
  (∀ (n : Nat) (s : State), s.Idle → s.NoCommand n →
    core.run n s = .next { s with inputs := s.inputs.drop n }) ∧
  (∀ (s t : State), step s = .next t →
    (s.ports.rst = false ∧ s.Idle ∧ s.ports.cmd ≠ 0 →
      t = { s with
        op := s.ports.cmd, kreg := s.ports.key, dreg := s.ports.din, upc := 0, busy := true,
        done := false, inputs := s.inputs.tail }) ∧
    (¬(s.ports.rst = false ∧ s.Idle ∧ s.ports.cmd ≠ 0) →
      (s.Idle → t.Idle) ∧
      (s.ports.rst = false → t.op = s.op ∧ t.kreg = s.kreg ∧ t.dreg = s.dreg)))

/-! ## Reset -/

/-- After one or more edges with `rst = 1`, from any state, every element has its reset value: all
zero, and `InvBox` the built table when `INVBOX_AT_RESET = true` (R220, with the values of R32, which
the spec calls its own, log 14). The model's own are the last three clauses: with the parameter false
the table is one of drawn free bytes (the form of the draw is a choice, log 3); each edge uses up its
sample of the ports and leaves the later ones (logs 1, 16); no reset writes the parameter (log 2). -/
def Obligations.ResetClearsEverything : Prop :=
  ∀ (n : Nat) (s : State), 0 < n → n ≤ s.inputs.length →
    (∀ p ∈ s.inputs.take n, p.rst = true) →
    ∃ t : State, core.run n s = .next t ∧
      t.s = Vector.replicate 4 0 ∧ t.w = Vector.replicate 44 0 ∧ t.kreg = 0 ∧ t.dreg = 0 ∧
      t.dout = 0 ∧ t.op = 0 ∧ t.upc = 0 ∧ t.busy = false ∧ t.done = false ∧
      (s.invBoxAtReset = true → t.Built) ∧
      (s.invBoxAtReset = false → ∃ d, t.invBox = drawnInvBox d) ∧
      t.inputs = s.inputs.drop n ∧ t.invBoxAtReset = s.invBoxAtReset

/-- The state right after reset has the values of the table of R32 (default `INVBOX_AT_RESET`): the
built table by its equation, zero elsewhere. -/
def Obligations.ResetStateValues : Prop :=
  (∀ i : Fin 4, State.reset.s[i.val] = 0) ∧ (∀ i : Fin 44, State.reset.w[i.val] = 0) ∧
  State.reset.kreg = 0 ∧ State.reset.dreg = 0 ∧ State.reset.dout = 0 ∧ State.reset.op = 0 ∧
  State.reset.upc = 0 ∧ State.reset.busy = false ∧ State.reset.done = false ∧
  State.reset.invBoxAtReset = true ∧
  (∀ x : Byte, State.reset.invBox[(sbox x).toNat]'(sbox x).isLt = x)

/-- With `INVBOX_AT_RESET = false` a reset leaves 256 free bytes, each drawn anew: entry a is the free
byte number `draws + a`, and the next reset draws from later ones (R221, U1; the form of the draw is
the model's choice, log 3). -/
def Obligations.UnbuiltTableIsDrawnAfresh : Prop :=
  ∀ s : State, s.ports.rst = true → s.invBoxAtReset = false →
    ∃ t : State, step s = .next t ∧
      (∀ a : Fin 256, t.invBox[a.val] = Config.freeByte (s.draws + a.val)) ∧
      t.draws = s.draws + 256

/-! ## Whole-machine rules -/

/-- The control invariant holds after reset, for both values of `INVBOX_AT_RESET` (R28, R29, R34). -/
def Obligations.InvariantHoldsAtReset : Prop :=
  State.reset.Inv ∧
  ∀ (b : Bool) (draws : Nat) (inputs : List Ports), (State.afterReset b draws inputs).Inv

/-- Every step keeps the control invariant: a busy core has an accepted command in progress at one of
its indices and is not done; an idle one has `upc = 0`; with `INVBOX_AT_RESET = true` the table is
built in every reachable state (R28, R29, R34, R221). -/
def Obligations.EveryStepKeepsTheInvariant : Prop :=
  ∀ s t : State, s.Inv → step s = .next t → t.Inv ∧ ¬(t.busy = true ∧ t.done = true)

/-- The core raises nothing: in every state that meets the invariant the step answers a next state,
and in no state at all does it answer a fault; where it refuses, the core is busy in a control state
that no run reaches (R200, R172; log 5). -/
def Obligations.StepAlwaysAnswersNext : Prop :=
  (∀ s : State, s.Inv → ∃ t, step s = .next t) ∧
  (∀ (s : State) (f : Fault), step s ≠ .fault f) ∧
  (∀ (s : State) (r : Refusal), step s = .refused r →
    s.busy = true ∧ ¬s.InProgress ∧
      (s.op = 0 ∧ r = .noMicroprogram ∨ s.op ≠ 0 ∧ r = .upcPastEnd s.upc))

/-- Who writes what (R33): at an edge without reset, the latches and `op` change only at accept, `w`
only by `KEXP`, `InvBox` only by `IBLD`, `dout` only by `STS`, `s` only by `LDS` and the seven round
transforms, and `upc`, `busy`, `done` only at accept and in the bookkeeping of a uop. -/
def Obligations.AccessMatrix : Prop :=
  ∀ s t : State, step s = .next t → s.ports.rst = false →
    (t.kreg ≠ s.kreg ∨ t.dreg ≠ s.dreg ∨ t.op ≠ s.op → s.Idle ∧ s.ports.cmd ≠ 0) ∧
    (t.w ≠ s.w → s.busy = true ∧ s.fetch = .ok .kexp) ∧
    (t.invBox ≠ s.invBox → s.busy = true ∧ s.fetch = .ok .ibld) ∧
    (t.dout ≠ s.dout → s.busy = true ∧ s.fetch = .ok .sts) ∧
    (t.s ≠ s.s → s.busy = true ∧ ∃ u, s.fetch = .ok u ∧
      (u ∈ [Instr.lds, .sub, .isub, .shr, .ishr, .mix, .imix] ∨ ∃ n, u = .ark n)) ∧
    (t.busy ≠ s.busy ∨ t.done ≠ s.done →
      (s.Idle ∧ s.ports.cmd ≠ 0) ∨ (s.busy = true ∧ s.upc.toNat = lastIndex s.op)) ∧
    (t.upc ≠ s.upc → s.busy = true ∨ (s.Idle ∧ s.ports.cmd ≠ 0)) ∧
    t.invBoxAtReset = s.invBoxAtReset ∧ t.draws = s.draws ∧ t.inputs = s.inputs.tail

/-- The built table stays built, and is built by every reset with `INVBOX_AT_RESET = true` and by
every completing `INIT`; a built table and the forward box are permutations and mutual inverses
(R34). -/
def Obligations.BuiltTableStaysBuilt : Prop :=
  (∀ s t : State, step s = .next t → s.Built →
    (s.ports.rst = false ∨ s.invBoxAtReset = true) → t.Built) ∧
  (∀ s t : State, step s = .next t → s.ports.rst = true → s.invBoxAtReset = true → t.Built) ∧
  (∀ s t : State, step s = .next t → s.ports.rst = false → s.busy = true → s.op = 3 → t.Built) ∧
  (∀ s : State, s.Built →
    Function.Bijective sbox ∧ Function.Bijective (readInvBox s.invBox) ∧
    ∀ x : Byte, readInvBox s.invBox (sbox x) = x ∧ sbox (readInvBox s.invBox x) = x)

/-- Every accepted command completes, unless reset: a command at index `upc` of its microprogram ends
after exactly `last - upc + 1` more steps, busy before each of them; so `ENC` and `DEC` take 43 steps
after accept and `INIT` 1, whatever is on the other ports and whatever the table holds (R179). -/
def Obligations.EveryCommandCompletes : Prop :=
  (∀ s : State, s.busy = true → s.InProgress →
    s.NoReset (lastIndex s.op - s.upc.toNat + 1) →
    (∃ t, core.run (lastIndex s.op - s.upc.toNat + 1) s = .next t ∧
      t.busy = false ∧ t.done = true ∧ t.upc = 0 ∧ t.op = s.op) ∧
    ∀ k ≤ lastIndex s.op - s.upc.toNat,
      ∃ u, core.run k s = .next u ∧ u.busy = true ∧ u.done = false ∧
        u.upc.toNat = s.upc.toNat + k) ∧
  (∀ s t : State, s.Idle → s.ports.rst = false → s.ports.cmd ≠ 0 → step s = .next t →
    t.busy = true ∧ t.InProgress ∧
      lastIndex t.op - t.upc.toNat + 1 = if s.ports.cmd = 3 then 1 else 43)

/-- What the host sees of `dout`: without reset it changes only in the step that executes the last
uop of an `ENC` or `DEC`, and in that step `busy` falls and `done` rises (R182, R26). -/
def Obligations.DoutChangesOnlyAtCompletion : Prop :=
  ∀ s t : State, s.Inv → step s = .next t → s.ports.rst = false → t.dout ≠ s.dout →
    (s.op = 1 ∨ s.op = 2) ∧ s.upc = 42 ∧
      s.outputs = { dout := s.dout, busy := true, done := false } ∧
      t.outputs = { dout := stateToBytes s.s, busy := false, done := true }

/-- `ENC`, whole: accepted by an idle core in any state and not reset, it leaves after 1 + 43 steps
the ciphertext of the operands sampled at accept on `dout`; `s` holds it in packed form, `w` the
schedule of the key; `InvBox` is untouched; and before the last step the core is busy and `dout`
shows the previous result (R175, R181). -/
def Obligations.EncryptCommandDeliversTheCiphertext : Prop :=
  ∀ (s : State) (key din : Block), s.Idle →
    s.ports = { rst := false, cmd := 1, key := key, din := din } → s.NoReset 44 →
    core.run 44 s = .next { s with
      s := bytesToState (encryptBlock key din), w := expandKey key, kreg := key, dreg := din,
      dout := encryptBlock key din, op := 1, upc := 0, busy := false, done := true,
      inputs := s.inputs.drop 44 } ∧
    ∀ k, 0 < k → k < 44 → ∃ u, core.run k s = .next u ∧
      u.outputs = { dout := s.dout, busy := true, done := false } ∧ u.invBox = s.invBox

/-- `DEC`, whole, for any contents of `InvBox`: after 1 + 43 steps `dout` is what the inverse cipher
computes by that table, and the plaintext when the table is built (R176, R181, R110). -/
def Obligations.DecryptCommandDeliversThePlaintext : Prop :=
  ∀ (s : State) (key din : Block), s.Idle →
    s.ports = { rst := false, cmd := 2, key := key, din := din } → s.NoReset 44 →
    core.run 44 s = .next { s with
      s := bytesToState (decryptBlockWith s.invBox key din), w := expandKey key, kreg := key,
      dreg := din, dout := decryptBlockWith s.invBox key din, op := 2, upc := 0, busy := false,
      done := true, inputs := s.inputs.drop 44 } ∧
    (s.Built → decryptBlockWith s.invBox key din = decryptBlock key din) ∧
    ∀ k, 0 < k → k < 44 → ∃ u, core.run k s = .next u ∧
      u.outputs = { dout := s.dout, busy := true, done := false } ∧ u.invBox = s.invBox

/-- `INIT`, whole: after accept and one step the table is built; `s`, `w` and `dout` are unchanged;
`key` and `din` were latched and not used (R178). -/
def Obligations.InitCommandBuildsTheTable : Prop :=
  ∀ (s : State) (key din : Block), s.Idle →
    s.ports = { rst := false, cmd := 3, key := key, din := din } → s.NoReset 2 →
    core.run 2 s = .next { s with
      invBox := builtInvBox, kreg := key, dreg := din, op := 3, upc := 0, busy := false,
      done := true, inputs := s.inputs.drop 2 } ∧
    ∃ u, core.run 1 s = .next u ∧ u.outputs = { dout := s.dout, busy := true, done := false }

/-- The round trip on values, both ways, for all keys and blocks (R180, R181). -/
def Obligations.DecryptUndoesEncrypt : Prop :=
  (∀ key block : Block, decryptBlock key (encryptBlock key block) = block) ∧
  (∀ key block : Block, encryptBlock key (decryptBlock key block) = block)

/-- The round trip in port terms: `ENC` with (K, B) completes with `dout = C`; when afterwards, at
whatever state of an idle core whose table is built, `DEC` with (K, C) is accepted, it completes with
`dout = B`; in particular when it is accepted at the very next edge. And the converse, on values
(R180). -/
def Obligations.RoundTripOnThePorts : Prop :=
  (∀ (s t s' : State) (key block : Block),
    s.Idle → s.ports = { rst := false, cmd := 1, key := key, din := block } → s.NoReset 44 →
    core.run 44 s = .next t →
    s'.Idle → s'.Built → s'.ports = { rst := false, cmd := 2, key := key, din := t.dout } →
    s'.NoReset 44 →
    ∃ t', core.run 44 s' = .next t' ∧
      t'.outputs = { dout := block, busy := false, done := true }) ∧
  (∀ (s : State) (key block : Block), s.Idle → s.Built → s.NoReset 88 →
    s.inputs[0]? = some { rst := false, cmd := 1, key := key, din := block } →
    s.inputs[44]? = some { rst := false, cmd := 2, key := key, din := encryptBlock key block } →
    ∃ t u, core.run 44 s = .next t ∧ core.run 88 s = .next u ∧
      t.outputs = { dout := encryptBlock key block, busy := false, done := true } ∧
      u.outputs = { dout := block, busy := false, done := true }) ∧
  (∀ key block : Block, decryptBlock key (encryptBlock key block) = block) ∧
  (∀ key block : Block, encryptBlock key (decryptBlock key block) = block)

/-- The known-answer vector of R175 and R176, and the all-zero boundary cases. -/
def Obligations.KnownAnswers : Prop :=
  encryptBlock 0x0f0e0d0c0b0a09080706050403020100 0xffeeddccbbaa99887766554433221100 =
    0x5ac5b47080b7cdd830047b6ad8e0c469 ∧
  decryptBlock 0x0f0e0d0c0b0a09080706050403020100 0x5ac5b47080b7cdd830047b6ad8e0c469 =
    0xffeeddccbbaa99887766554433221100 ∧
  encryptBlock 0 0 = 0x2e2b34ca59fa4c883b2c8aefd44be966 ∧
  decryptBlock 0 0 = 0x3aecd9ff177758793d22b511100f0f14
end

