-- ==== Sys2Proof/Laws/Galois.lean ====
section
/-! SUPPORT. Small facts of the multiplier's loop (40_codec_gf_sbox.md R104). -/

namespace Sys2Proof.Machine

@[simp] theorem mulLoop_zero (a b p : Byte) : mulLoop 0 a b p = p := rfl

theorem mulLoop_succ (n : Nat) (a b p : Byte) :
    mulLoop (n + 1) a b p =
      mulLoop n (xtime a) (b >>> 1) (if b.getLsbD 0 then p ^^^ a else p) := rfl

/-- Doubling distributes over addition in the field, which is XOR. -/
theorem xtime_xor (a b : Byte) : xtime (a ^^^ b) = xtime a ^^^ xtime b := by
  unfold xtime
  rw [BitVec.getLsbD_xor, BitVec.shiftLeft_xor_distrib]
  cases a.getLsbD 7 <;> cases b.getLsbD 7 <;> simp [← BitVec.xor_assoc] <;> grind

end Sys2Proof.Machine
end

