-- ==== Sys2Proof/Laws/Operands.lean ====
section
/-! SUPPORT. Lanes and slices: `byte` and `pack` undo each other (00_scope.md R11), and the codec is
slicing of the bus (20_memory.md R52). -/

namespace Sys2Proof.Machine

/-- A word is determined by its four lanes. -/
theorem word_ext {x y : Word} (h : ∀ j, byte x j = byte y j) : x = y := by
  apply BitVec.eq_of_getLsbD_eq
  intro i hi
  have h' := congrArg (fun b => b.getLsbD (i % 8)) (h ⟨i / 8, by omega⟩)
  simp only [byte, BitVec.getLsbD_extractLsb'] at h'
  have e : 8 * (i / 8) + i % 8 = i := by omega
  have l : i % 8 < 8 := Nat.mod_lt _ (by decide)
  simpa [e, l] using h'

/-- The bits of a packed word, lane by lane. -/
theorem getLsbD_pack (a b c d : Byte) (i : Nat) :
    (pack a b c d).getLsbD i =
      if i < 8 then a.getLsbD i else if i < 16 then b.getLsbD (i - 8)
      else if i < 24 then c.getLsbD (i - 16) else d.getLsbD (i - 24) := by
  by_cases hi : i < 32
  · simp only [pack, BitVec.getLsbD_or, BitVec.getLsbD_shiftLeft, BitVec.getLsbD_setWidth]
    interval_cases i <;> simp
  · rw [BitVec.getLsbD_of_ge _ i (by omega), if_neg (by omega), if_neg (by omega),
      if_neg (by omega), BitVec.getLsbD_of_ge d _ (by omega)]

@[simp] theorem byte_pack_zero (a b c d : Byte) : byte (pack a b c d) 0 = a := by
  apply BitVec.eq_of_getLsbD_eq
  intro i hi
  have e : byte (pack a b c d) 0 = (pack a b c d).extractLsb' 0 8 := rfl
  rw [e, BitVec.getLsbD_extractLsb', getLsbD_pack]
  grind

@[simp] theorem byte_pack_one (a b c d : Byte) : byte (pack a b c d) 1 = b := by
  apply BitVec.eq_of_getLsbD_eq
  intro i hi
  have e : byte (pack a b c d) 1 = (pack a b c d).extractLsb' 8 8 := rfl
  rw [e, BitVec.getLsbD_extractLsb', getLsbD_pack]
  grind

@[simp] theorem byte_pack_two (a b c d : Byte) : byte (pack a b c d) 2 = c := by
  apply BitVec.eq_of_getLsbD_eq
  intro i hi
  have e : byte (pack a b c d) 2 = (pack a b c d).extractLsb' 16 8 := rfl
  rw [e, BitVec.getLsbD_extractLsb', getLsbD_pack]
  grind

@[simp] theorem byte_pack_three (a b c d : Byte) : byte (pack a b c d) 3 = d := by
  apply BitVec.eq_of_getLsbD_eq
  intro i hi
  have e : byte (pack a b c d) 3 = (pack a b c d).extractLsb' 24 8 := rfl
  rw [e, BitVec.getLsbD_extractLsb', getLsbD_pack]
  grind

/-- The four lanes of a packed word (R11). -/
theorem byte_pack (f : Fin 4 → Byte) (j : Fin 4) : byte (pack (f 0) (f 1) (f 2) (f 3)) j = f j := by
  fin_cases j <;> simp

/-- Packing the four lanes of a word gives it back. -/
@[simp] theorem pack_byte (x : Word) : pack (byte x 0) (byte x 1) (byte x 2) (byte x 3) = x :=
  word_ext fun j => byte_pack (byte x) j

/-- Two packed words are equal exactly when their lanes are. -/
theorem pack_inj {a b c d a' b' c' d' : Byte} :
    pack a b c d = pack a' b' c' d' ↔ a = a' ∧ b = b' ∧ c = c' ∧ d = d' := by
  constructor
  · intro h
    refine ⟨?_, ?_, ?_, ?_⟩
    · simpa using congrArg (byte · 0) h
    · simpa using congrArg (byte · 1) h
    · simpa using congrArg (byte · 2) h
    · simpa using congrArg (byte · 3) h
  · rintro ⟨rfl, rfl, rfl, rfl⟩
    rfl

/-- Lanes of an XOR. -/
@[simp] theorem byte_xor (x y : Word) (j : Fin 4) : byte (x ^^^ y) j = byte x j ^^^ byte y j := by
  simp [byte, BitVec.extractLsb'_xor]

/-- Byte j of word i of a bus is byte 4i + j of the sequence (R51, R52). -/
theorem byte_blockWord (b : Block) (i j : Fin 4) :
    byte (blockWord b i) j = blockByte b ⟨4 * i.val + j.val, by omega⟩ := by
  fin_cases j <;> simp [blockWord]

/-- Word i of a bus is the slice 32i+31:32i (R52, R73). -/
theorem blockWord_eq_slice (b : Block) (i : Fin 4) :
    blockWord b i = b.extractLsb' (32 * i.val) 32 := by
  apply word_ext
  intro j
  rw [byte_blockWord]
  apply BitVec.eq_of_getLsbD_eq
  intro k hk
  have hj := j.isLt
  simp only [blockByte, byte, BitVec.getLsbD_extractLsb', hk, decide_true, Bool.true_and]
  rw [show decide (8 * j.val + k < 32) = true by simp; omega, Bool.true_and]
  congr 1
  omega

@[simp] theorem getElem_bytesToState (b : Block) (i : Nat) (h : i < 4) :
    (bytesToState b)[i] = blockWord b ⟨i, h⟩ := by
  simp [bytesToState]

/-- Word i of the Block of four words is the i-th of them (R73, R101). -/
theorem blockWord_stateToBytes (s : StateWords) (i : Fin 4) :
    blockWord (stateToBytes s) i = s[i.val] := by
  rw [blockWord_eq_slice]
  apply BitVec.eq_of_getLsbD_eq
  intro k hk
  fin_cases i <;>
    simp only [stateToBytes, BitVec.getLsbD_extractLsb', BitVec.getLsbD_append, hk] <;> grind

/-- Storing four words and loading them again gives them back (R102). -/
@[simp] theorem bytesToState_stateToBytes (s : StateWords) : bytesToState (stateToBytes s) = s := by
  ext i hi
  simp [blockWord_stateToBytes]

/-- Loading a Block and storing it again gives it back (R102). -/
@[simp] theorem stateToBytes_bytesToState (b : Block) : stateToBytes (bytesToState b) = b := by
  apply BitVec.eq_of_getLsbD_eq
  intro k hk
  have hs := fun (i : Fin 4) (h : k / 32 = i.val) =>
    congrArg (fun x : Word => x.getLsbD (k % 32)) (blockWord_stateToBytes (bytesToState b) i)
  have h4 : k / 32 < 4 := by omega
  have h := hs ⟨k / 32, h4⟩ rfl
  simp only [getElem_bytesToState, blockWord_eq_slice, BitVec.getLsbD_extractLsb'] at h
  have e : 32 * (k / 32) + k % 32 = k := by omega
  have l : k % 32 < 32 := Nat.mod_lt _ (by decide)
  simpa [e, l] using h

end Sys2Proof.Machine
end

