-- ==== Sys2Proof/Laws/KeySchedule.lean ====
section
/-! SUPPORT. The loop of the key expansion (42_key_schedule.md R153): each iteration writes one word
and reads only words of earlier ones. -/

namespace Sys2Proof.Machine

/-- The words after the first n iterations of the loop of R153. -/
def expandUpto (key : Block) (n : Nat) : Schedule :=
  ((List.finRange 40).take n).foldl expandStep (keyWords key)

theorem expandUpto_succ (key : Block) (n : Nat) (h : n < 40) :
    expandUpto key (n + 1) = expandStep (expandUpto key n) ⟨n, h⟩ := by
  simp [expandUpto, List.take_add_one, h]

/-- An iteration leaves every word but its own alone. -/
theorem getElem_expandStep (w : Schedule) (j : Fin 40) (i : Nat) (h : i < 44) :
    (expandStep w j)[i] =
      if i = j.val + 4 then w[j.val] ^^^ expandTemp j w[j.val + 3] else w[i] := by
  simp [expandStep, Vector.getElem_set, eq_comm]

/-- A word that is written stays: word i is final after iteration i - 4. -/
theorem expandUpto_stable (key : Block) (i n : Nat) (hi : i < 44) (h : i < n + 4) (m : Nat)
    (hm : n + m ≤ 40) : (expandUpto key (n + m))[i] = (expandUpto key n)[i] := by
  induction m with
  | zero => rfl
  | succ m ih =>
    rw [show n + (m + 1) = (n + m) + 1 by omega]
    simp only [expandUpto_succ key (n + m) (by omega)]
    rw [getElem_expandStep, if_neg (by simp only; omega), ih (by omega)]

theorem expandKey_eq_upto (key : Block) : expandKey key = expandUpto key 40 := by
  simp [expandKey, expandUpto, List.take_of_length_le]

theorem getElem_expandKey_eq_upto (key : Block) (i n : Nat) (hi : i < 44) (h : i < n + 4)
    (hn : n ≤ 40) : (expandKey key)[i] = (expandUpto key n)[i] := by
  have e := expandUpto_stable key i n hi h (40 - n) (by omega)
  simp only [show n + (40 - n) = 40 by omega] at e
  rw [← e]
  simp only [expandKey_eq_upto]

/-- Words 0..3 of the schedule are the key, packed (R153, R155). -/
theorem getElem_expandKey_low (key : Block) (i : Nat) (h : i < 4) :
    (expandKey key)[i] = blockWord key ⟨i, h⟩ := by
  rw [getElem_expandKey_eq_upto key i 0 (by omega) (by omega) (by omega)]
  simp [expandUpto, keyWords, h]

/-- Word j + 4 of the schedule from words j and j + 3 of the same schedule (R153). -/
theorem getElem_expandKey_next (key : Block) (j : Fin 40) :
    (expandKey key)[j.val + 4] =
      (expandKey key)[j.val] ^^^ expandTemp j (expandKey key)[j.val + 3] := by
  have hj := j.isLt
  rw [getElem_expandKey_eq_upto key (j.val + 4) (j.val + 1) (by omega) (by omega) (by omega)]
  simp only [expandUpto_succ key j.val hj]
  rw [getElem_expandStep, if_pos rfl,
    getElem_expandKey_eq_upto key j.val j.val (by omega) (by omega) (by omega),
    getElem_expandKey_eq_upto key (j.val + 3) j.val (by omega) (by omega) (by omega)]

end Sys2Proof.Machine
end

