-- ==== Sys2Proof/Laws/PerInstr.lean ====
section
/-! SUPPORT. Statements about every instruction, one lemma per constructor. The family
`EncodedFormat`: the bytes of an instruction are as many as its format has (30_encoding.md R70: a
command is 258 bits, a uop one 8-bit word; log 9). -/

namespace Sys2Proof.Laws.EncodedFormat

/-- How many bytes an instruction's word takes: 33 for a command, 1 for a uop. -/
def Statement (i : Instr) : Prop :=
  (encodeBytes i).length = if i.isCommand then 33 else 1

theorem length_bytesOfNat (n v : Nat) : (bytesOfNat n v).length = n := by
  induction n generalizing v with
  | zero => rfl
  | succ n ih => simp [bytesOfNat, ih]

theorem nop (key din : Block) : Statement (.nop key din) := length_bytesOfNat 33 _
theorem enc (key din : Block) : Statement (.enc key din) := length_bytesOfNat 33 _
theorem dec (key din : Block) : Statement (.dec key din) := length_bytesOfNat 33 _
theorem init (key din : Block) : Statement (.init key din) := length_bytesOfNat 33 _
theorem kexp : Statement .kexp := length_bytesOfNat 1 _
theorem lds : Statement .lds := length_bytesOfNat 1 _
theorem sts : Statement .sts := length_bytesOfNat 1 _
theorem sub : Statement .sub := length_bytesOfNat 1 _
theorem shr : Statement .shr := length_bytesOfNat 1 _
theorem mix : Statement .mix := length_bytesOfNat 1 _
theorem ark (n : BitVec 4) : Statement (.ark n) := length_bytesOfNat 1 _
theorem ibld : Statement .ibld := length_bytesOfNat 1 _
theorem isub : Statement .isub := length_bytesOfNat 1 _
theorem ishr : Statement .ishr := length_bytesOfNat 1 _
theorem imix : Statement .imix := length_bytesOfNat 1 _

end Sys2Proof.Laws.EncodedFormat
end

