-- ==== Sys2Proof/Laws/Round.lean ====
section
/-! SUPPORT. The round transforms word by word and lane by lane (41_round_transforms.md R130 to
R136). -/

namespace Sys2Proof.Machine

/-- Lane j of a word under a function of bytes (R130, R151). -/
@[simp] theorem byte_mapBytes (f : Byte → Byte) (x : Word) (j : Fin 4) :
    byte (mapBytes f x) j = f (byte x j) :=
  byte_pack (fun j => f (byte x j)) j

@[simp] theorem getElem_subBytes (s : StateWords) (i : Nat) (h : i < 4) :
    (subBytes s)[i] = mapBytes sbox s[i] := by
  simp [subBytes]

@[simp] theorem getElem_invSubBytes (t : InvTable) (s : StateWords) (i : Nat) (h : i < 4) :
    (invSubBytes t s)[i] = mapBytes (readInvBox t) s[i] := by
  simp [invSubBytes]

@[simp] theorem getElem_mixColumns (s : StateWords) (i : Nat) (h : i < 4) :
    (mixColumns s)[i] = mixColumn s[i] := by
  simp [mixColumns]

@[simp] theorem getElem_invMixColumns (s : StateWords) (i : Nat) (h : i < 4) :
    (invMixColumns s)[i] = invMixColumn s[i] := by
  simp [invMixColumns]

@[simp] theorem getElem_addRoundKey (w : Schedule) (n : Fin 11) (s : StateWords) (i : Nat)
    (h : i < 4) : (addRoundKey w n s)[i] = s[i] ^^^ w[4 * n.val + i] := by
  simp [addRoundKey, roundKeyWord]

/-- Lane j of word i after ShiftRows is lane j of word (i + j) mod 4 (R132). -/
theorem byte_shiftRows (s : StateWords) (i j : Fin 4) :
    byte (shiftRows s)[i.val] j = byte s[(i.val + j.val) % 4] j := by
  simp only [shiftRows, Vector.getElem_ofFn]
  fin_cases j <;> simp

/-- Lane j of word i after InvShiftRows is lane j of word (i + (4 - j) mod 4) mod 4 (R133). -/
theorem byte_invShiftRows (s : StateWords) (i j : Fin 4) :
    byte (invShiftRows s)[i.val] j = byte s[(i.val + (4 - j.val) % 4) % 4] j := by
  simp only [invShiftRows, Vector.getElem_ofFn]
  fin_cases j <;> simp

/-- Four state words are determined by their sixteen lanes. -/
theorem stateWords_ext {s t : StateWords}
    (h : ∀ i j : Fin 4, byte s[i.val] j = byte t[i.val] j) : s = t := by
  ext1 i hi
  exact word_ext (h ⟨i, hi⟩)

end Sys2Proof.Machine
end

