-- ==== Sys2Proof/Laws/State.lean ====
section
/-! SUPPORT. One lemma per field per named update of the state, each true by rfl, so that no later
proof unfolds an update. -/

namespace Sys2Proof.Machine

variable (s : State)

/-! `flagAccepted`: `busy <- 1`, `done <- 0`. -/

@[simp] theorem State.flagAccepted_s : (s.flagAccepted).s = s.s := rfl
@[simp] theorem State.flagAccepted_w : (s.flagAccepted).w = s.w := rfl
@[simp] theorem State.flagAccepted_invBox : (s.flagAccepted).invBox = s.invBox := rfl
@[simp] theorem State.flagAccepted_kreg : (s.flagAccepted).kreg = s.kreg := rfl
@[simp] theorem State.flagAccepted_dreg : (s.flagAccepted).dreg = s.dreg := rfl
@[simp] theorem State.flagAccepted_dout : (s.flagAccepted).dout = s.dout := rfl
@[simp] theorem State.flagAccepted_op : (s.flagAccepted).op = s.op := rfl
@[simp] theorem State.flagAccepted_upc : (s.flagAccepted).upc = s.upc := rfl
@[simp] theorem State.flagAccepted_busy : (s.flagAccepted).busy = true := rfl
@[simp] theorem State.flagAccepted_done : (s.flagAccepted).done = false := rfl
@[simp] theorem State.flagAccepted_inputs : (s.flagAccepted).inputs = s.inputs := rfl
@[simp] theorem State.flagAccepted_invBoxAtReset : (s.flagAccepted).invBoxAtReset = s.invBoxAtReset := rfl
@[simp] theorem State.flagAccepted_draws : (s.flagAccepted).draws = s.draws := rfl

/-! `flagCompleted`: `busy <- 0`, `done <- 1`. -/

@[simp] theorem State.flagCompleted_s : (s.flagCompleted).s = s.s := rfl
@[simp] theorem State.flagCompleted_w : (s.flagCompleted).w = s.w := rfl
@[simp] theorem State.flagCompleted_invBox : (s.flagCompleted).invBox = s.invBox := rfl
@[simp] theorem State.flagCompleted_kreg : (s.flagCompleted).kreg = s.kreg := rfl
@[simp] theorem State.flagCompleted_dreg : (s.flagCompleted).dreg = s.dreg := rfl
@[simp] theorem State.flagCompleted_dout : (s.flagCompleted).dout = s.dout := rfl
@[simp] theorem State.flagCompleted_op : (s.flagCompleted).op = s.op := rfl
@[simp] theorem State.flagCompleted_upc : (s.flagCompleted).upc = s.upc := rfl
@[simp] theorem State.flagCompleted_busy : (s.flagCompleted).busy = false := rfl
@[simp] theorem State.flagCompleted_done : (s.flagCompleted).done = true := rfl
@[simp] theorem State.flagCompleted_inputs : (s.flagCompleted).inputs = s.inputs := rfl
@[simp] theorem State.flagCompleted_invBoxAtReset : (s.flagCompleted).invBoxAtReset = s.invBoxAtReset := rfl
@[simp] theorem State.flagCompleted_draws : (s.flagCompleted).draws = s.draws := rfl

/-! `accept`. -/

@[simp] theorem State.accept_s (c : CmdBits) (k d : Block) : (s.accept c k d).s = s.s := rfl
@[simp] theorem State.accept_w (c : CmdBits) (k d : Block) : (s.accept c k d).w = s.w := rfl
@[simp] theorem State.accept_invBox (c : CmdBits) (k d : Block) : (s.accept c k d).invBox = s.invBox := rfl
@[simp] theorem State.accept_kreg (c : CmdBits) (k d : Block) : (s.accept c k d).kreg = k := rfl
@[simp] theorem State.accept_dreg (c : CmdBits) (k d : Block) : (s.accept c k d).dreg = d := rfl
@[simp] theorem State.accept_dout (c : CmdBits) (k d : Block) : (s.accept c k d).dout = s.dout := rfl
@[simp] theorem State.accept_op (c : CmdBits) (k d : Block) : (s.accept c k d).op = c := rfl
@[simp] theorem State.accept_upc (c : CmdBits) (k d : Block) : (s.accept c k d).upc = 0 := rfl
@[simp] theorem State.accept_busy (c : CmdBits) (k d : Block) : (s.accept c k d).busy = true := rfl
@[simp] theorem State.accept_done (c : CmdBits) (k d : Block) : (s.accept c k d).done = false := rfl
@[simp] theorem State.accept_inputs (c : CmdBits) (k d : Block) : (s.accept c k d).inputs = s.inputs := rfl
@[simp] theorem State.accept_invBoxAtReset (c : CmdBits) (k d : Block) : (s.accept c k d).invBoxAtReset = s.invBoxAtReset := rfl
@[simp] theorem State.accept_draws (c : CmdBits) (k d : Block) : (s.accept c k d).draws = s.draws := rfl

/-! `nextEdge`: only `inputs`. -/

@[simp] theorem State.nextEdge_s : (s.nextEdge).s = s.s := rfl
@[simp] theorem State.nextEdge_w : (s.nextEdge).w = s.w := rfl
@[simp] theorem State.nextEdge_invBox : (s.nextEdge).invBox = s.invBox := rfl
@[simp] theorem State.nextEdge_kreg : (s.nextEdge).kreg = s.kreg := rfl
@[simp] theorem State.nextEdge_dreg : (s.nextEdge).dreg = s.dreg := rfl
@[simp] theorem State.nextEdge_dout : (s.nextEdge).dout = s.dout := rfl
@[simp] theorem State.nextEdge_op : (s.nextEdge).op = s.op := rfl
@[simp] theorem State.nextEdge_upc : (s.nextEdge).upc = s.upc := rfl
@[simp] theorem State.nextEdge_busy : (s.nextEdge).busy = s.busy := rfl
@[simp] theorem State.nextEdge_done : (s.nextEdge).done = s.done := rfl
@[simp] theorem State.nextEdge_inputs : (s.nextEdge).inputs = s.inputs.tail := rfl
@[simp] theorem State.nextEdge_invBoxAtReset : (s.nextEdge).invBoxAtReset = s.invBoxAtReset := rfl
@[simp] theorem State.nextEdge_draws : (s.nextEdge).draws = s.draws := rfl

/-! `withWords`: only `s`. -/

@[simp] theorem State.withWords_s (v : StateWords) : (s.withWords v).s = v := rfl
@[simp] theorem State.withWords_w (v : StateWords) : (s.withWords v).w = s.w := rfl
@[simp] theorem State.withWords_invBox (v : StateWords) : (s.withWords v).invBox = s.invBox := rfl
@[simp] theorem State.withWords_kreg (v : StateWords) : (s.withWords v).kreg = s.kreg := rfl
@[simp] theorem State.withWords_dreg (v : StateWords) : (s.withWords v).dreg = s.dreg := rfl
@[simp] theorem State.withWords_dout (v : StateWords) : (s.withWords v).dout = s.dout := rfl
@[simp] theorem State.withWords_op (v : StateWords) : (s.withWords v).op = s.op := rfl
@[simp] theorem State.withWords_upc (v : StateWords) : (s.withWords v).upc = s.upc := rfl
@[simp] theorem State.withWords_busy (v : StateWords) : (s.withWords v).busy = s.busy := rfl
@[simp] theorem State.withWords_done (v : StateWords) : (s.withWords v).done = s.done := rfl
@[simp] theorem State.withWords_inputs (v : StateWords) : (s.withWords v).inputs = s.inputs := rfl
@[simp] theorem State.withWords_invBoxAtReset (v : StateWords) : (s.withWords v).invBoxAtReset = s.invBoxAtReset := rfl
@[simp] theorem State.withWords_draws (v : StateWords) : (s.withWords v).draws = s.draws := rfl

/-! `resetEvent`. -/

@[simp] theorem State.resetEvent_s : (s.resetEvent).s = Vector.replicate 4 0 := rfl
@[simp] theorem State.resetEvent_w : (s.resetEvent).w = Vector.replicate 44 0 := rfl
@[simp] theorem State.resetEvent_invBox : (s.resetEvent).invBox = 
    (if s.invBoxAtReset then builtInvBox else drawnInvBox s.draws) := rfl
@[simp] theorem State.resetEvent_kreg : (s.resetEvent).kreg = 0 := rfl
@[simp] theorem State.resetEvent_dreg : (s.resetEvent).dreg = 0 := rfl
@[simp] theorem State.resetEvent_dout : (s.resetEvent).dout = 0 := rfl
@[simp] theorem State.resetEvent_op : (s.resetEvent).op = 0 := rfl
@[simp] theorem State.resetEvent_upc : (s.resetEvent).upc = 0 := rfl
@[simp] theorem State.resetEvent_busy : (s.resetEvent).busy = false := rfl
@[simp] theorem State.resetEvent_done : (s.resetEvent).done = false := rfl
@[simp] theorem State.resetEvent_inputs : (s.resetEvent).inputs = s.inputs := rfl
@[simp] theorem State.resetEvent_invBoxAtReset : (s.resetEvent).invBoxAtReset = s.invBoxAtReset := rfl
@[simp] theorem State.resetEvent_draws : (s.resetEvent).draws = 
    (if s.invBoxAtReset then s.draws else s.draws + 256) := rfl

end Sys2Proof.Machine
end

