-- ==== Sys2Proof/Laws/Step.lean ====
section
/-! SUPPORT. What a step can do, said once: the fetch, the bookkeeping, the three outcomes of a clock
edge (60_exceptions.md R204), and that a uop leaves the control state alone (10_state.md R33). -/

namespace Sys2Proof.Machine

variable {s t : State}

theorem retire_eq_next {o : Host.Outcome State Fault Refusal} :
    retire o = .next t ↔ ∃ u, o = .next u ∧ t = u.bookkeep := by
  cases o <;> simp [retire, eq_comm]

/-- The fetch answers a uop exactly when the word at `upc` decodes to it (R172). -/
theorem fetch_eq_ok {u : Instr} :
    s.fetch = .ok u ↔
      ∃ word, (urom s.op)[s.upc.toNat]? = some word ∧ decode (.uop word) = .ok u := by
  unfold State.fetch
  cases (urom s.op)[s.upc.toNat]? with
  | none => by_cases h : s.op = 0#2 <;> simp [h]
  | some word => cases h : decode (.uop word) <;> simp [h]

theorem step_of_rst (h : s.ports.rst = true) : step s = .next s.nextEdge.resetEvent := by
  simp [step, clockEdge, h]

theorem step_of_busy (hr : s.ports.rst = false) (hb : s.busy = true) : step s = stepBusy s := by
  simp [step, clockEdge, hr, hb]

theorem step_of_idle (hr : s.ports.rst = false) (hb : s.busy = false) :
    step s = exec (commandOf s.ports.cmd s.ports.key s.ports.din) s.nextEdge := by
  have h : decodeCommand (cmdWord s.ports.cmd s.ports.key s.ports.din) =
      commandOf s.ports.cmd s.ports.key s.ports.din := by
    simp only [decodeCommand, cmdCode, cmdKey, cmdDin, cmdWord]
    congr 1 <;> apply BitVec.eq_of_getLsbD_eq <;> intro i hi <;>
      simp only [BitVec.getLsbD_extractLsb', BitVec.getLsbD_append, hi] <;> grind
  simp [step, clockEdge, hr, hb, stepIdle, h]

/-- A busy core whose fetch answers a uop runs it and does the bookkeeping (R172, R173). -/
theorem step_of_fetch {u : Instr} (hr : s.ports.rst = false) (hb : s.busy = true)
    (hf : s.fetch = .ok u) : step s = retire (exec u s.nextEdge) := by
  rw [step_of_busy hr hb, stepBusy, hf]

/-- The bookkeeping changes `upc` and the flags only (R173). -/
theorem bookkeep_eq (s : State) :
    s.bookkeep = if s.upc.toNat = lastIndex s.op
      then { s with upc := 0, busy := false, done := true } else { s with upc := s.upc + 1 } := rfl

/-- What accepting a command does on the idle core; the code 00 is never accepted (R170, R171). -/
theorem exec_commandOf_idle (code : CmdBits) (key din : Block) (h : s.busy = false) :
    exec (commandOf code key din) s =
      .next (if code = 0 then s else s.accept code key din) := by
  obtain ⟨c⟩ := code
  fin_cases c <;>
    simp [commandOf, exec, execNop, execEnc, execDec, execInit, State.present, h]

/-- Everything a step that answers a next state can have been. -/
theorem step_next_cases (h : step s = .next t) :
    (s.ports.rst = true ∧ t = s.nextEdge.resetEvent) ∨
    (s.ports.rst = false ∧ s.busy = true ∧
      ∃ u v, s.fetch = .ok u ∧ exec u s.nextEdge = .next v ∧ t = v.bookkeep) ∨
    (s.ports.rst = false ∧ s.busy = false ∧
      t = if s.ports.cmd = 0 then s.nextEdge
        else s.nextEdge.accept s.ports.cmd s.ports.key s.ports.din) := by
  cases hr : s.ports.rst with
  | true =>
    rw [step_of_rst hr] at h
    exact .inl ⟨rfl, (Host.Outcome.next.inj h).symm⟩
  | false =>
    cases hb : s.busy with
    | true =>
      rw [step_of_busy hr hb, stepBusy] at h
      split at h
      · obtain ⟨v, hv, e⟩ := retire_eq_next.mp h
        exact .inr (.inl ⟨rfl, rfl, _, v, by assumption, hv, e⟩)
      · cases h
    | false =>
      rw [step_of_idle hr hb, exec_commandOf_idle _ _ _ (by simpa using hb)] at h
      exact .inr (.inr ⟨rfl, rfl, (Host.Outcome.next.inj h).symm⟩)

/-- A uop touches no control state: neither `op`, `upc`, `busy`, `done` nor the latches, nor the
model's own fields (R33, R137). -/
theorem exec_uop_control {u : Instr} (hu : u.isCommand = false) (h : exec u s = .next t) :
    t.op = s.op ∧ t.upc = s.upc ∧ t.busy = s.busy ∧ t.done = s.done ∧ t.kreg = s.kreg ∧
      t.dreg = s.dreg ∧ t.inputs = s.inputs ∧ t.invBoxAtReset = s.invBoxAtReset ∧
      t.draws = s.draws := by
  cases u with
  | ark n =>
    simp only [exec, execArk] at h
    split at h
    · cases h; simp
    · cases h
  | nop | enc | dec | init => cases hu
  | kexp | lds | sts | sub | shr | mix | ibld | isub | ishr | imix => cases h; simp

/-- A uop reads no port sample: its effect is the same whatever samples are to come (R177). -/
theorem exec_uop_inputs {u : Instr} (hu : u.isCommand = false) (l : List Ports)
    (h : exec u s = .next t) : exec u { s with inputs := l } = .next { t with inputs := l } := by
  cases u with
  | ark n =>
    simp only [exec, execArk] at h ⊢
    split at h
    · rename_i hn
      cases h
      rw [dif_pos hn]
      rfl
    · cases h
  | nop | enc | dec | init => cases hu
  | kexp | lds | sts | sub | shr | mix | ibld | isub | ishr | imix =>
    cases h
    simp only [exec, execKexp, execLds, execSts, execSub, execShr, execMix, execIbld, execIsub,
      execIshr, execImix, State.withWords]

/-- A well-formed uop has a next state from every state (R137, R200). -/
theorem exec_uop_next {u : Instr} (hu : u.isCommand = false) (hw : u.wellFormed = true)
    (s : State) : ∃ t, exec u s = .next t := by
  cases u with
  | ark n =>
    simp only [Instr.wellFormed, decide_eq_true_eq] at hw
    exact ⟨_, by simp only [exec, execArk, dif_pos hw]; rfl⟩
  | nop | enc | dec | init => cases hu
  | kexp | lds | sts | sub | shr | mix | ibld | isub | ishr | imix => exact ⟨_, rfl⟩

/-- Whether a word decodes to a well-formed uop. -/
def isUopWord (word : UopWord) : Bool :=
  match decode (.uop word) with
  | .ok u => u.wellFormed && !u.isCommand
  | .error _ => false

/-- Every word of a microprogram is a well-formed uop (R78 to R81). -/
theorem urom_isUopWord (op : CmdBits) : (urom op).all isUopWord = true := by
  obtain ⟨c⟩ := op
  fin_cases c <;> decide

/-- A microprogram has `last + 1` words (R173). -/
theorem urom_length (op : CmdBits) (h : op ≠ 0) : (urom op).length = lastIndex op + 1 := by
  obtain ⟨c⟩ := op
  fin_cases c
  · exact absurd rfl h
  all_goals rfl

/-- What the fetch answers is a well-formed uop. -/
theorem fetch_ok_uop {u : Instr} (h : s.fetch = .ok u) :
    u.isCommand = false ∧ u.wellFormed = true := by
  obtain ⟨word, hw, hd⟩ := fetch_eq_ok.mp h
  have := List.all_eq_true.mp (urom_isUopWord s.op) word (List.mem_of_getElem? hw)
  rw [isUopWord, hd] at this
  simpa [and_comm] using this

/-- In progress, the fetch answers a uop (R172). -/
theorem fetch_of_inProgress (h : s.InProgress) : ∃ u, s.fetch = .ok u := by
  obtain ⟨h0, hl, -⟩ := h
  have hlt : s.upc.toNat < (urom s.op).length := by rw [urom_length _ h0]; omega
  have hall := List.all_eq_true.mp (urom_isUopWord s.op) _ (List.getElem_mem hlt)
  rw [isUopWord] at hall
  split at hall
  · rename_i u hu
    exact ⟨u, fetch_eq_ok.mpr ⟨_, List.getElem?_eq_getElem hlt, hu⟩⟩
  · cases hall

end Sys2Proof.Machine
end

