-- ==== Sys2Proof/Laws/Run.lean ====
section
/-! SUPPORT. Runs of several steps, and the host's samples along them. -/

namespace Sys2Proof.Machine

/-- One step of a run of any machine. -/
theorem run_succ_core (M : Host.Core) (n : Nat) (s : M.State) :
    M.run (n + 1) s = match M.step s with
      | .next t => M.run n t
      | .fault r => .fault r
      | .refused r => .refused r := rfl

theorem run_zero (s : State) : core.run 0 s = .next s := rfl

/-- A run goes on from the state its first step answers. -/
theorem run_succ_of_next {s t : State} (h : step s = .next t) (n : Nat) :
    core.run (n + 1) s = core.run n t := by
  have e : core.step s = .next t := h
  exact (run_succ_core core n s).trans (by rw [e])

/-- A run that answers a next state took a first step that did. -/
theorem step_of_run_succ {s u : State} {n : Nat} (h : core.run (n + 1) s = .next u) :
    ∃ t, step s = .next t ∧ core.run n t = .next u := by
  cases e : step s with
  | next t => exact ⟨t, rfl, by rw [← run_succ_of_next e]; exact h⟩
  | fault f => exact nomatch f
  | refused r =>
    have e' : core.step s = .refused r := e
    have h' := (run_succ_core core n s).symm.trans h
    rw [e'] at h'
    cases h'

/-- Runs compose. -/
theorem run_add {s t : State} {n : Nat} (h : core.run n s = .next t) (m : Nat) :
    core.run (n + m) s = core.run m t := by
  induction n generalizing s with
  | zero =>
    cases h
    rw [Nat.zero_add]
  | succ n ih =>
    obtain ⟨u, hu, hr⟩ := step_of_run_succ h
    rw [show n + 1 + m = (n + m) + 1 by omega, run_succ_of_next hu, ih hr]

/-- Without reset at the next n + 1 edges there is none at the next one, nor at the n after it. -/
theorem noReset_succ {s : State} {n : Nat} :
    s.NoReset (n + 1) ↔ s.ports.rst = false ∧ s.nextEdge.NoReset n := by
  unfold State.ports State.nextEdge State.NoReset
  cases h : s.inputs with
  | nil => simp [Ports.quiet]
  | cons p ps => simp

/-- The same of edges without reset and without a command. -/
theorem noCommand_succ {s : State} {n : Nat} :
    s.NoCommand (n + 1) ↔
      (s.ports.rst = false ∧ s.ports.cmd = 0) ∧ s.nextEdge.NoCommand n := by
  unfold State.ports State.nextEdge State.NoCommand
  cases h : s.inputs with
  | nil => simp [Ports.quiet]
  | cons p ps => simp

end Sys2Proof.Machine
end

