-- ==== Sys2Proof/Laws/Tables.lean ====
section
/-! SUPPORT. The substitution tables: reads after writes, and the table that `IBLD`'s loop leaves
(40_codec_gf_sbox.md R107 to R109). -/

namespace Sys2Proof.Machine

/-- A read after a write to the table. -/
theorem readInvBox_writeInvBox (t : InvTable) (a v b : Byte) :
    readInvBox (writeInvBox t a v) b = if a = b then v else readInvBox t b := by
  simp [readInvBox, writeInvBox, Vector.getElem_set, ← BitVec.toNat_inj]

/-- Two tables with the same entries are the same table. -/
theorem invTable_ext {t u : InvTable} (h : ∀ a, readInvBox t a = readInvBox u a) : t = u := by
  ext1 i hi
  simpa [readInvBox] using h (BitVec.ofNatLT i hi)

@[simp] theorem readInvBox_tableOf (f : Nat → Byte) (a : Byte) :
    readInvBox (tableOf f) a = f a.toNat := by
  simp [readInvBox, tableOf]

/-- The tables of R106 and R108 undo each other, one way. -/
theorem readInvBox_builtInvBox_sbox (x : Byte) : readInvBox builtInvBox (sbox x) = x := by
  have h : ∀ n : Fin 256, rowsByte invBoxRows (sbox ⟨n⟩).toNat = ⟨n⟩ := by decide +kernel
  simpa [builtInvBox] using h x.toFin

/-- The tables of R106 and R108 undo each other, the other way. -/
theorem sbox_readInvBox_builtInvBox (y : Byte) : sbox (readInvBox builtInvBox y) = y := by
  have h : ∀ n : Fin 256, sbox (rowsByte invBoxRows n.val) = ⟨n⟩ := by decide +kernel
  simpa [builtInvBox] using h y.toFin

/-- The forward box is one to one (R107). -/
theorem sbox_injective : Function.Injective sbox :=
  Function.LeftInverse.injective (g := readInvBox builtInvBox) readInvBox_builtInvBox_sbox

/-- After the first n writes of `IBLD`'s loop the entries of the first n bytes are in place. -/
theorem read_build_upto (t : InvTable) (n : Nat) (hn : n ≤ 256) (x : Byte) (hx : x.toNat < n) :
    readInvBox ((List.range n).foldl
      (fun t x => writeInvBox t (sbox (BitVec.ofNat 8 x)) (BitVec.ofNat 8 x)) t) (sbox x) = x := by
  induction n with
  | zero => omega
  | succ n ih =>
    rw [List.range_succ, List.foldl_append]
    simp only [List.foldl_cons, List.foldl_nil, readInvBox_writeInvBox]
    by_cases e : BitVec.ofNat 8 n = x
    · simp [e]
    · rw [if_neg (fun h => e (sbox_injective h))]
      refine ih (by omega) (Nat.lt_of_le_of_ne (by omega) fun h => e ?_)
      simp [← h]

/-- What `IBLD`'s loop leaves, whatever the table held: `InvBox[SBox[x]] = x` (R109). -/
theorem readInvBox_buildInvBox (t : InvTable) (x : Byte) :
    readInvBox (buildInvBox t) (sbox x) = x :=
  read_build_upto t 256 (Nat.le_refl _) x x.isLt

/-- `IBLD`'s loop leaves the table of R108, whatever the table held (R109). -/
theorem buildInvBox_eq_builtInvBox (t : InvTable) : buildInvBox t = builtInvBox :=
  invTable_ext fun a => by
    rw [← sbox_readInvBox_builtInvBox a, readInvBox_buildInvBox, readInvBox_builtInvBox_sbox]

end Sys2Proof.Machine
end

