-- ==== Sys2Proof/Machine/Written.lean ====
section
/-! DEFINITION. The written forms of instructions (30_encoding.md R82, R83; 00_scope.md R15). They
have no semantic content; nothing of the machine reads them. -/

namespace Sys2Proof.Machine

/-- A hexadecimal digit, lower case as in 95_test_vectors.md. -/
def hexDigit (d : Nat) : Char :=
  ['0', '1', '2', '3', '4', '5', '6', '7', '8', '9', 'a', 'b', 'c', 'd', 'e', 'f'].getD (d % 16) '0'

/-- The two digits of a byte. -/
def hexByte (b : Byte) : List Char := [hexDigit (b.toNat / 16), hexDigit b.toNat]

/-- A Block or Key as 32 digits, `b[0]` first (R15). -/
def hexBlock (b : Block) : List Char := (List.finRange 16).flatMap fun k => hexByte (blockByte b k)

/-- A number below 100 in decimal, without leading zeros. -/
def decimal (n : Nat) : List Char :=
  if n < 10 then [hexDigit n] else [hexDigit (n / 10), hexDigit (n % 10)]

/-- The operands of `ENC` and `DEC`: ` key=<32 hex digits> in=<32 hex digits>` (R82). -/
def writtenOperands (key din : Block) : List Char :=
  [' ', 'k', 'e', 'y', '='] ++ hexBlock key ++ [' ', 'i', 'n', '='] ++ hexBlock din

/-- The written form of an instruction: commands as in R82, uops as in R83. -/
def written : Instr → List Char
  | .nop _ _ => ['N', 'O', 'P']
  | .enc key din => ['E', 'N', 'C'] ++ writtenOperands key din
  | .dec key din => ['D', 'E', 'C'] ++ writtenOperands key din
  | .init _ _ => ['I', 'N', 'I', 'T']
  | .kexp => ['K', 'E', 'X', 'P']
  | .lds => ['L', 'D', 'S']
  | .sts => ['S', 'T', 'S']
  | .sub => ['S', 'U', 'B']
  | .shr => ['S', 'H', 'R']
  | .mix => ['M', 'I', 'X']
  | .ark n => ['A', 'R', 'K', ' '] ++ decimal n.toNat
  | .ibld => ['I', 'B', 'L', 'D']
  | .isub => ['I', 'S', 'U', 'B']
  | .ishr => ['I', 'S', 'H', 'R']
  | .imix => ['I', 'M', 'I', 'X']

/-- The written form of a pseudo-instruction (R83). -/
def writtenPseudo : Pseudo → List Char
  | .fround r => ['F', 'R', 'O', 'U', 'N', 'D', ' '] ++ decimal r.toNat
  | .ffinal => ['F', 'F', 'I', 'N', 'A', 'L']
  | .iround r => ['I', 'R', 'O', 'U', 'N', 'D', ' '] ++ decimal r.toNat
  | .ifinal => ['I', 'F', 'I', 'N', 'A', 'L']

end Sys2Proof.Machine
end

