-- ==== Sys2Proof/Tests/Slice0.lean ====
section
/-! SUPPORT. Tests of the model, one step or one value each, and for every statement of
Certificates/Slice0/Obligations.lean that has hypotheses a witness that meets them together. The
expected values of the tests are those of spec/95_test_vectors.md, by its vector numbers V1 to V21,
or are written out from the rule named. -/

namespace Sys2Proof.Machine.Tests

/-! ## Helpers -/

/-- The key, the plaintext and the ciphertext of V1, as bus literals. -/
def keyK : Block := 0x0f0e0d0c0b0a09080706050403020100
def blockP : Block := 0xffeeddccbbaa99887766554433221100
def blockC : Block := 0x5ac5b47080b7cdd830047b6ad8e0c469

/-- The state words of the bytes 00 to 0f (V10). -/
def count : StateWords := #v[0x03020100, 0x07060504, 0x0b0a0908, 0x0f0e0d0c]

/-- A core after reset whose state words are `v` and whose latches hold the V1 operands. -/
def holding (v : StateWords) : State := { State.reset with s := v, kreg := keyK, dreg := blockP }

/-- The same in the middle of a command: the uop at index k of the microprogram of `op` is next. -/
def atUop (op : CmdBits) (k : Upc) (v : StateWords) : State :=
  { holding v with op := op, upc := k, busy := true }

/-- A sample of the ports without reset. -/
def ask (code : CmdBits) (key din : Block) : Ports :=
  { rst := false, cmd := code, key := key, din := din }

/-- A sample of the ports with reset, and a command beside it. -/
def resetting : Ports := { rst := true, cmd := 1, key := keyK, din := blockP }

/-- An idle core, done with an earlier command, with these samples to come. -/
def idleWith (ps : List Ports) : State :=
  { holding count with op := 1, done := true, inputs := ps }

/-- One projection of the next state. -/
def look {α : Type} (f : State → α) : Host.Outcome State Fault Refusal → Option α
  | .next s => some (f s)
  | .fault _ => none
  | .refused _ => none

/-- The control state: `op`, `upc`, `busy`, `done`. -/
def control (s : State) : Nat × Nat × Bool × Bool := (s.op.toNat, s.upc.toNat, s.busy, s.done)

/-! ## Well-formedness: an ill-formed term for each check -/

theorem test_wf_ark_round_11_to_15_refused :
    [11, 12, 13, 14, 15].all (fun n => (Instr.ark n).wellFormed = false) = true := by decide

theorem test_wf_ark_round_10_accepted : (Instr.ark 10).wellFormed = true := by decide

theorem test_wf_pseudo_round_0_and_10_refused :
    [Pseudo.fround 0, .fround 10, .iround 0, .iround 10].all (fun p => p.wellFormed = false) =
      true := by decide

theorem test_wf_pseudo_round_1_and_9_accepted :
    [Pseudo.fround 1, .fround 9, .iround 1, .iround 9, .ffinal, .ifinal].all Pseudo.wellFormed =
      true := by decide

/-! ## Decoding: words written out from R71, R72, R75, R76; the rows of V15 -/

theorem test_decode_kexp : decode (.uop 0b0001_0000) = .ok .kexp := by decide
theorem test_decode_lds : decode (.uop 0b0010_0000) = .ok .lds := by decide
theorem test_decode_sts : decode (.uop 0b0011_0000) = .ok .sts := by decide
theorem test_decode_sub : decode (.uop 0b0100_0000) = .ok .sub := by decide
theorem test_decode_shr : decode (.uop 0b0101_0000) = .ok .shr := by decide
theorem test_decode_mix : decode (.uop 0b0110_0000) = .ok .mix := by decide
theorem test_decode_ark_5 : decode (.uop 0b0111_0101) = .ok (.ark 5) := by decide
theorem test_decode_ark_10 : decode (.uop 0b0111_1010) = .ok (.ark 10) := by decide
theorem test_decode_ibld : decode (.uop 0b1000_0000) = .ok .ibld := by decide
theorem test_decode_isub : decode (.uop 0b1100_0000) = .ok .isub := by decide
theorem test_decode_ishr : decode (.uop 0b1101_0000) = .ok .ishr := by decide
theorem test_decode_imix : decode (.uop 0b1110_0000) = .ok .imix := by decide

/-- The four command codes; `key` is the upper operand, `din` the lower (R71; V1). -/
theorem test_decode_enc :
    decode (.command
      0x1_0f0e0d0c0b0a09080706050403020100_ffeeddccbbaa99887766554433221100) =
      .ok (.enc keyK blockP) := by decide
theorem test_decode_dec :
    decode (.command
      0x2_0f0e0d0c0b0a09080706050403020100_5ac5b47080b7cdd830047b6ad8e0c469) =
      .ok (.dec keyK blockC) := by decide
theorem test_decode_init :
    decode (.command
      0x3_00000000000000000000000000000001_00000000000000000000000000000002) =
      .ok (.init 1 2) := by decide
theorem test_decode_nop :
    decode (.command
      0x0_80000000000000000000000000000000_00000000000000000000000000000003) =
      .ok (.nop 0x80000000000000000000000000000000 3) := by decide

/-- The legal words of V15, 21 of 256. -/
theorem test_decode_legal_words :
    (List.range 256).filter (fun n => (decodeTableWord 8 n).isSome) =
      [0x10, 0x20, 0x30, 0x40, 0x50, 0x60, 0x70, 0x71, 0x72, 0x73, 0x74] ++
      [0x75, 0x76, 0x77, 0x78, 0x79, 0x7A, 0x80, 0xC0, 0xD0, 0xE0] := by decide

/-- Each refusal by its name (R81; the rows of V15). -/
theorem test_decode_reserved_names :
    decode (.uop 0x00) = .error (.reservedKind 0x0) ∧
    decode (.uop 0xFF) = .error (.reservedKind 0xF) ∧
    decode (.uop 0x7B) = .error (.reservedRound 11) ∧
    decode (.uop 0x7F) = .error (.reservedRound 15) ∧
    decode (.uop 0x11) = .error (.reservedArg 0x1 1) ∧
    decode (.uop 0x8F) = .error (.reservedArg 0x8 15) := by decide

/-- Strings of bytes that are no word of either format. -/
theorem test_decode_bytes_refused :
    decodeBytes [] = .error (.badLength 0) ∧ decodeBytes [0x10, 0] = .error (.badLength 2) ∧
    decodeBytes (List.replicate 32 0 ++ [0x04]) = .error .badPadding := by decide

/-! ## The tables and the field -/

/-- V20, row by row, in decimal. -/
theorem test_sbox_is_V20 : (List.range 256).map (fun n => (sbox (BitVec.ofNat 8 n)).toNat) =
  [99, 124, 119, 123, 242, 107, 111, 197, 48, 1, 103, 43, 254, 215, 171, 118] ++
  [202, 130, 201, 125, 250, 89, 71, 240, 173, 212, 162, 175, 156, 164, 114, 192] ++
  [183, 253, 147, 38, 54, 63, 247, 204, 52, 165, 229, 241, 113, 216, 49, 21] ++
  [4, 199, 35, 195, 24, 150, 5, 154, 7, 18, 128, 226, 235, 39, 178, 117] ++
  [9, 131, 44, 26, 27, 110, 90, 160, 82, 59, 214, 179, 41, 227, 47, 132] ++
  [83, 209, 0, 237, 32, 252, 177, 91, 106, 203, 190, 57, 74, 76, 88, 207] ++
  [208, 239, 170, 251, 67, 77, 51, 133, 69, 249, 2, 127, 80, 60, 159, 168] ++
  [81, 163, 64, 143, 146, 157, 56, 245, 188, 182, 218, 33, 16, 255, 243, 210] ++
  [205, 12, 19, 236, 95, 151, 68, 23, 196, 167, 126, 61, 100, 93, 25, 115] ++
  [96, 129, 79, 220, 34, 42, 144, 136, 70, 238, 184, 20, 222, 94, 11, 219] ++
  [224, 50, 58, 10, 73, 6, 36, 92, 194, 211, 172, 98, 145, 149, 228, 121] ++
  [231, 200, 55, 109, 141, 213, 78, 169, 108, 86, 244, 234, 101, 122, 174, 8] ++
  [186, 120, 37, 46, 28, 166, 180, 198, 232, 221, 116, 31, 75, 189, 139, 138] ++
  [112, 62, 181, 102, 72, 3, 246, 14, 97, 53, 87, 185, 134, 193, 29, 158] ++
  [225, 248, 152, 17, 105, 217, 142, 148, 155, 30, 135, 233, 206, 85, 40, 223] ++
  [140, 161, 137, 13, 191, 230, 66, 104, 65, 153, 45, 15, 176, 84, 187, 22] := by decide +kernel

/-- V21, row by row, in decimal: what `IBLD` leaves from an all-zero table. -/
theorem test_ibld_is_V21 :
    (buildInvBox (Vector.replicate 256 0)).toList.map BitVec.toNat =
  [82, 9, 106, 213, 48, 54, 165, 56, 191, 64, 163, 158, 129, 243, 215, 251] ++
  [124, 227, 57, 130, 155, 47, 255, 135, 52, 142, 67, 68, 196, 222, 233, 203] ++
  [84, 123, 148, 50, 166, 194, 35, 61, 238, 76, 149, 11, 66, 250, 195, 78] ++
  [8, 46, 161, 102, 40, 217, 36, 178, 118, 91, 162, 73, 109, 139, 209, 37] ++
  [114, 248, 246, 100, 134, 104, 152, 22, 212, 164, 92, 204, 93, 101, 182, 146] ++
  [108, 112, 72, 80, 253, 237, 185, 218, 94, 21, 70, 87, 167, 141, 157, 132] ++
  [144, 216, 171, 0, 140, 188, 211, 10, 247, 228, 88, 5, 184, 179, 69, 6] ++
  [208, 44, 30, 143, 202, 63, 15, 2, 193, 175, 189, 3, 1, 19, 138, 107] ++
  [58, 145, 17, 65, 79, 103, 220, 234, 151, 242, 207, 206, 240, 180, 230, 115] ++
  [150, 172, 116, 34, 231, 173, 53, 133, 226, 249, 55, 232, 28, 117, 223, 110] ++
  [71, 241, 26, 113, 29, 41, 197, 137, 111, 183, 98, 14, 170, 24, 190, 27] ++
  [252, 86, 62, 75, 198, 210, 121, 32, 154, 219, 192, 254, 120, 205, 90, 244] ++
  [31, 221, 168, 51, 136, 7, 199, 49, 177, 18, 16, 89, 39, 128, 236, 95] ++
  [96, 81, 127, 169, 25, 181, 74, 13, 45, 229, 122, 159, 147, 201, 156, 239] ++
  [160, 224, 59, 77, 174, 42, 245, 176, 200, 235, 187, 60, 131, 83, 153, 97] ++
  [23, 43, 4, 126, 186, 119, 214, 38, 225, 105, 20, 99, 85, 33, 12, 125] := by decide +kernel

/-- Rows of V7. -/
theorem test_mul_V7 :
    mul 0x57 0x83 = 0xc1 ∧ mul 0x57 0x13 = 0xfe ∧ mul 0xae 0x02 = 0x47 ∧ mul 0x80 0x02 = 0x1b ∧
    mul 0xff 0xff = 0x13 ∧ mul 0x02 0x8d = 0x01 ∧ mul 0x53 0xca = 0x01 ∧ mul 0x09 0x0d = 0x65 ∧
    mul 0x00 0xab = 0x00 ∧ mul 0xab 0x01 = 0xab := by decide

/-- Rows of V7 by the definition of R103. -/
theorem test_mulPoly_V7 :
    mulPoly 0x57 0x83 = 0xc1 ∧ mulPoly 0xff 0xff = 0x13 ∧ mulPoly 0x0b 0x0e = 0x62 := by decide

/-- Rows of V11. -/
theorem test_rotWord_subWord_V11 :
    rotWord 0x12345678 = 0x78123456 ∧ subWord 0x12345678 = 0xc918b1bc ∧
    subWord 0x000000ff = 0x63636316 := by decide

/-! ## Micro-operations: at most two tests each, from V3, V6, V8, V10 -/

theorem test_kexp_V3 :
    look (fun t => (t.w[0], t.w[4], t.w[5], t.w[43])) (exec .kexp (holding count)) =
      some (0x03020100, 0xfd74aad6, 0xfa72afd2, 0xc5302b4d) := by decide +kernel
theorem test_kexp_zero_key_V11 :
    look (fun t => (t.w[7], t.w[40])) (exec .kexp { holding count with kreg := 0 }) =
      some (0x63636362, 0xcb5befb4) := by decide +kernel

theorem test_lds_V6 :
    look State.s (exec .lds (holding count)) =
      some #v[0x33221100, 0x77665544, 0xbbaa9988, 0xffeeddcc] := by decide
theorem test_lds_last_byte_V6 :
    look State.s (exec .lds
      { holding count with dreg := 0x80000000000000000000000000000000 }) =
      some #v[0, 0, 0, 0x80000000] := by decide

theorem test_sts_V6 :
    look State.dout (exec .sts
      (holding #v[0xd8e0c469, 0x30047b6a, 0x80b7cdd8, 0x5ac5b470])) = some blockC := by decide
theorem test_sts_byte_3_V6 :
    look State.dout (exec .sts (holding #v[0xff000000, 0, 0, 0])) =
      some 0x000000000000000000000000ff000000 := by decide

theorem test_sub_V10 :
    look State.s (exec .sub (holding count)) =
      some #v[0x7b777c63, 0xc56f6bf2, 0x2b670130, 0x76abd7fe] := by decide
theorem test_isub_V10 :
    look State.s (exec .isub (holding count)) =
      some #v[0xd56a0952, 0x38a53630, 0x9ea340bf, 0xfbd7f381] := by decide +kernel
/-- A table that was not built is used as it is (R110). -/
theorem test_isub_unbuilt_table :
    look State.s (exec .isub { holding count with invBox := Vector.replicate 256 0xA5 }) =
      some #v[0xa5a5a5a5, 0xa5a5a5a5, 0xa5a5a5a5, 0xa5a5a5a5] := by decide +kernel

theorem test_shr_V10 :
    look State.s (exec .shr (holding #v[0xdeadbeef, 0, 0, 0])) =
      some #v[0x000000ef, 0xde000000, 0x00ad0000, 0x0000be00] := by decide
theorem test_ishr_V10 :
    look State.s (exec .ishr (holding #v[0xdeadbeef, 0, 0, 0])) =
      some #v[0x000000ef, 0x0000be00, 0x00ad0000, 0xde000000] := by decide

theorem test_mix_V10 :
    look State.s (exec .mix (holding #v[0x455313db, 0x5c220af2, 0x01010101, 0xc6c6c6c6])) =
      some #v[0xbca14d8e, 0x9d58dc9f, 0x01010101, 0xc6c6c6c6] := by decide
theorem test_mix_unit_columns_V10 :
    look State.s (exec .mix (holding #v[0x1, 0x100, 0x10000, 0x1000000])) =
      some #v[0x03010102, 0x01010203, 0x01020301, 0x02030101] := by decide
theorem test_imix_V10 :
    look State.s (exec .imix (holding #v[0x455313db, 0x5c220af2, 0x305dbfd4, 0xbca14d8e])) =
      some #v[0x551da432, 0x8269c3ae, 0xdfa35c26, 0x455313db] := by decide
theorem test_imix_unit_columns_V10 :
    look State.s (exec .imix (holding #v[0x1, 0x100, 0x10000, 0x1000000])) =
      some #v[0x0b0d090e, 0x0d090e0b, 0x090e0b0d, 0x0e0b0d09] := by decide

theorem test_ark_0_V10 :
    look State.s (exec (.ark 0)
      { holding #v[0x33221100, 0x77665544, 0xbbaa9988, 0xffeeddcc] with w := expandKey keyK }) =
      some #v[0x30201000, 0x70605040, 0xb0a09080, 0xf0e0d0c0] := by decide +kernel
theorem test_ark_10_V10 :
    look State.s (exec (.ark 10)
      { holding #v[0xa7fdd57a, 0x274eef89, 0x0b10ca2b, 0x9ff59f3d] with w := expandKey keyK }) =
      some #v[0xd8e0c469, 0x30047b6a, 0x80b7cdd8, 0x5ac5b470] := by decide +kernel

theorem test_ibld_V8 :
    look (fun t => (readInvBox t.invBox 0x63, readInvBox t.invBox 0x7c, readInvBox t.invBox 0xff))
      (exec .ibld { holding count with invBox := Vector.replicate 256 0xA5 }) =
      some (0x00, 0x01, 0x7d) := by decide +kernel

/-! ## Commands and the sequencer: edges of V14, values of V9, V16, V17 -/

/-- Edge 1: reset wins over the command presented with it. -/
theorem test_step_reset_wins :
    look control (step (idleWith [resetting])) = some (0, 0, false, false) := by decide
/-- Edge 2: idle. -/
theorem test_step_idle : look control (step State.reset) = some (0, 0, false, false) := by decide
/-- Edge 3: accept; the operands are latched. -/
theorem test_step_accept :
    look (fun t => (control t, t.kreg, t.dreg)) (step (idleWith [ask 1 blockC blockP])) =
      some ((1, 0, true, false), blockC, blockP) := by decide
/-- Edge 5: `LDS` runs; the command presented meanwhile is dropped. -/
theorem test_step_busy_drops :
    look (fun t => (control t, t.kreg))
      (step { atUop 1 1 count with inputs := [ask 1 blockC blockP] }) =
      some ((1, 2, true, false), keyK) := by decide
/-- Edge 46: the last uop, and the `INIT` presented with it is dropped. -/
theorem test_step_last_uop :
    look (fun t => (control t, t.dout))
      (step { atUop 1 42 #v[0xd8e0c469, 0x30047b6a, 0x80b7cdd8, 0x5ac5b470] with
        inputs := [ask 3 0 0] }) =
      some ((1, 0, false, true), blockC) := by decide
/-- Edge 50: `INIT` completes in one step. -/
theorem test_step_ibld : look control (step (atUop 3 0 count)) = some (3, 0, false, true) := by
  decide +kernel
/-- Edge 54: reset in the middle of a command. -/
theorem test_step_reset_mid_command :
    look (fun t => (control t, t.s, t.kreg)) (step { atUop 2 2 count with inputs := [resetting] }) =
      some ((0, 0, false, false), #v[0, 0, 0, 0], 0) := by decide

/-- `NOP` carries operands and does nothing with them (R174). -/
theorem test_nop : look control (exec (.nop 1 2) (idleWith [])) = some (1, 0, false, true) := by
  decide
/-- `DEC` and `INIT` on an idle core; `INIT` latches its operands too (R171, R178). -/
theorem test_dec_accept : look control (exec (.dec 1 2) (idleWith [])) = some (2, 0, true, false) :=
  by decide
theorem test_init_accept :
    look (fun t => (control t, t.kreg, t.dreg)) (exec (.init 1 2) (idleWith [])) =
      some ((3, 0, true, false), 1, 2) := by decide

/-- V9, and V1 backwards, on values. -/
theorem test_encryptBlock_V9 :
    encryptBlock 0x3c4fcf098815f7aba6d2ae2816157e2b 0x340737e0a29831318d305a88a8f64332 =
      0x320b6a19978511dcfb09dc021d842539 := by decide +kernel
/-- V16: the wrong byte order on the ports gives a well-defined other result. -/
theorem test_encryptBlock_V16 :
    encryptBlock 0x000102030405060708090a0b0c0d0e0f 0x00112233445566778899aabbccddeeff =
      0xd0bfe1c79a57a7e74b276e90cca5a729 := by decide +kernel
/-- V17: by an all-zero table the result is round key 0, which is the key. -/
theorem test_decryptBlock_unbuilt_V17 :
    decryptBlockWith (Vector.replicate 256 0) keyK blockC = keyK := by decide +kernel

/-- The next instruction of a placed word runs first after reset (log 10). -/
theorem test_withFetchWord_sub :
    look (fun t => (t.s, control t)) (step (State.reset.withFetchWord 8 0x40)) =
      some (#v[0x63636363, 0x63636363, 0x63636363, 0x63636363], (1, 4, true, false)) := by decide
theorem test_withFetchWord_enc :
    look (fun t => (control t, t.kreg)) (step (State.reset.withFetchWord 258
      0x1_0f0e0d0c0b0a09080706050403020100_ffeeddccbbaa99887766554433221100)) =
      some ((1, 0, true, false), keyK) := by decide

/-! ## Written forms (R15, R82, R83) -/

theorem test_written_enc :
    String.ofList (written (.enc keyK blockP)) =
      "ENC key=000102030405060708090a0b0c0d0e0f in=00112233445566778899aabbccddeeff" := by decide
theorem test_written_ark_and_pseudo :
    String.ofList (written (.ark 10)) = "ARK 10" ∧ String.ofList (written .ibld) = "IBLD" ∧
    String.ofList (writtenPseudo (.fround 9)) = "FROUND 9" ∧
    String.ofList (writtenPseudo .ifinal) = "IFINAL" := by decide

/-! ## Witnesses: states and operands that meet the hypotheses of the statements

One theorem for each clause that has hypotheses, named after the statement; boundary values where a
clause ranges over a field. -/

theorem witness_UopKindCodes :
    (0 : BitVec 4).toNat ≤ 10 ∧ (10 : BitVec 4).toNat ≤ 10 ∧
    decode (.uop 0x7A) = .ok (.ark 10) ∧ decode (.uop 0xC0) = .ok .isub ∧
    (Instr.mix, Instr.imix) ∈ [(Instr.sub, Instr.isub), (.shr, .ishr), (.mix, .imix)] ∧
    [0x00#8, 0x9F, 0xA0, 0xB0, 0xFF].all
      (fun w => w.extractLsb' 4 4 ∈ [0x0#4, 0x9, 0xA, 0xB, 0xF]) = true := by decide

theorem witness_ReservedUopWordsAreRefused : 0x10#8 ∈ urom 1 ∧ 0xE0#8 ∈ urom 2 ∧ 0x80#8 ∈ urom 3 :=
  by decide

theorem witness_DecodeUndoesEncode :
    (Instr.ark 10).wellFormed = true ∧ (Instr.enc keyK blockP).wellFormed = true ∧
    decodeBytes [0x7A] = .ok (.ark 10) ∧
    decodeBytes (List.replicate 32 0 ++ [0x03]) = .ok (.init 0 0) := by decide

theorem witness_MicroprogramTables :
    1 ∈ [1, 2, 3, 4, 5, 6, 7, 8, 9] ∧ 9 ∈ [9, 8, 7, 6, 5, 4, 3, 2, 1] ∧
      State.reset.invBoxAtReset = true := by decide

theorem witness_BuiltBoxIsTheUniqueInverse :
    ∃ t : InvTable, ∀ x : Byte, t[(sbox x).toNat]'(sbox x).isLt = x :=
  ⟨builtInvBox, by decide +kernel⟩

theorem witness_FieldMultiplicationLaws : (0x53 : Byte) ≠ 0 ∧ mul 0x53 0xCA = 1 := by decide

theorem witness_RoundConstants :
    0 + 1 < 10 ∧ 8 + 1 < 10 ∧ (1 : Fin 4) ≠ 0 ∧ (3 : Fin 4) ≠ 0 := by decide

theorem witness_KexpExpandsTheKey :
    (4 ≤ 4 ∧ 4 < 44 ∧ 4 % 4 = 0) ∧ (4 ≤ 40 ∧ 40 < 44 ∧ 40 % 4 = 0) ∧
      (4 ≤ 43 ∧ 43 < 44 ∧ 43 % 4 ≠ 0) := by decide

theorem witness_KeyExpansionIsDeterministic :
    ∃ s s' : State, s.kreg = s'.kreg ∧ s ≠ s' :=
  ⟨holding count, atUop 1 0 count, rfl, fun h => absurd (congrArg State.busy h) (by decide)⟩

theorem witness_CodecRoundTrip_load :
    ∃ s t u : State, exec .lds s = .next t ∧ exec .sts t = .next u ∧ u.dout ≠ s.dout :=
  ⟨holding count, _, _, rfl, rfl, by decide⟩
theorem witness_CodecRoundTrip_store :
    ∃ s t u : State, exec .sts s = .next t ∧ exec .lds { t with dreg := t.dout } = .next u ∧
      s.s ≠ State.reset.s :=
  ⟨holding count, _, _, rfl, rfl, by decide⟩

theorem witness_ShrShiftsRows_equal_words :
    (holding (Vector.replicate 4 0xaabbccdd)).s = Vector.replicate 4 0xaabbccdd := rfl

theorem witness_IshrShiftsRowsBack_equal_words :
    (holding (Vector.replicate 4 0)).s = Vector.replicate 4 0 := rfl

theorem witness_MixMixesEachColumn :
    (holding count).s[(0 : Fin 4).val] = pack 0x00 0x01 0x02 0x03 ∧
    (holding count).s[(3 : Fin 4).val] = pack 0x0c 0x0d 0x0e 0x0f := by decide

theorem witness_ImixMixesEachColumnBack :
    (holding #v[0x455313db, 0, 0, 0xffffffff]).s[(0 : Fin 4).val] = pack 0xdb 0x13 0x53 0x45 ∧
    (holding #v[0x455313db, 0, 0, 0xffffffff]).s[(3 : Fin 4).val] = pack 0xff 0xff 0xff 0xff := by
  decide

theorem witness_ArkAddsRoundKey :
    (0 : BitVec 4).toNat ≤ 10 ∧ (9 : BitVec 4).toNat ≤ 10 ∧ (10 : BitVec 4).toNat ≤ 10 := by decide

theorem witness_ArkReservedRoundIsRefused :
    11 ≤ (11 : BitVec 4).toNat ∧ 11 ≤ (15 : BitVec 4).toNat := by decide

theorem witness_IbldBuildsTheInverseTable : (atUop 3 0 count).invBoxAtReset = true := rfl

/-- Two states that agree on `s` (and on `InvBox`, and on round keys 0 and 10) and differ elsewhere. -/
theorem witness_RoundTransformsArePure :
    ∃ s s' : State, s.s = s'.s ∧ s.invBox = s'.invBox ∧ s ≠ s' ∧
      (∀ n ∈ [0#4, 10#4], ∀ i : Fin 4, s.w[4 * n.toNat + i.val]? = s'.w[4 * n.toNat + i.val]?) ∧
      Instr.isub ∈ [Instr.sub, .isub, .shr, .ishr, .mix, .imix] ++
        ([0, 1, 2, 3, 4, 5, 6, 7, 8, 9, 10].map fun n => Instr.ark n) :=
  ⟨holding count, { holding count with w := (Vector.replicate 44 0).set 20 1 }, rfl, rfl,
    fun h => absurd (congrArg (fun s : State => s.w[20]) h) (by decide), by decide, by decide⟩

theorem witness_InversePairs_pairs :
    ∃ s t u v w : State, exec .shr s = .next t ∧ exec .ishr s = .next u ∧ exec .mix s = .next v ∧
      exec .imix s = .next w ∧ t ≠ s :=
  ⟨holding count, _, _, _, _, rfl, rfl, rfl, rfl,
    fun h => absurd (congrArg State.s h) (by decide)⟩
theorem witness_InversePairs_ark :
    ∃ s t u : State, exec (.ark 0) s = .next t ∧ exec (.ark 10) s = .next u :=
  ⟨holding count, _, _, rfl, rfl⟩
theorem witness_InversePairs_sub :
    ∃ s t u : State, s.Built ∧ exec .sub s = .next t ∧ exec .isub s = .next u ∧ t.s ≠ s.s :=
  ⟨holding count, _, _, rfl, rfl, rfl, by decide⟩
theorem witness_InversePairs_commute :
    ∃ s t t' u u' : State, exec .sub s = .next t ∧ exec .shr s = .next t' ∧
      exec .isub s = .next u ∧ exec .ishr s = .next u' :=
  ⟨holding count, _, _, _, _, rfl, rfl, rfl, rfl⟩

theorem witness_NopChangesNothing :
    ∃ s : State, s.ports.rst = false ∧ s.Idle ∧ s.ports.cmd = 0 ∧ s.ports.key = keyK :=
  ⟨idleWith [ask 0 keyK blockP], rfl, rfl, rfl, rfl⟩

theorem witness_AcceptLatchesTheCommand : (idleWith []).Idle := rfl

theorem witness_CommandsAreDroppedWhileBusy : (atUop 1 0 count).busy = true := rfl

theorem witness_StepRunsTheDecodedInstruction_uop :
    ∃ (s : State) (word : UopWord) (u : Instr), s.ports.rst = false ∧ s.busy = true ∧
      (urom s.op)[s.upc.toNat]? = some word ∧ decode (.uop word) = .ok u :=
  ⟨atUop 2 42 count, 0x30, .sts, rfl, rfl, rfl, rfl⟩
theorem witness_StepRunsTheDecodedInstruction_command :
    ∃ s : State, s.ports.rst = false ∧ s.Idle ∧
      decode (.command (s.ports.cmd ++ (s.ports.key ++ s.ports.din))) = .ok (.dec keyK blockC) :=
  ⟨idleWith [ask 2 keyK blockC], rfl, rfl, by decide⟩

/-- The first and the last uop of each microprogram. -/
theorem witness_BookkeepingAfterAUop_enc_last :
    ∃ s t : State, s.ports.rst = false ∧ s.busy = true ∧ s.fetch = .ok .sts ∧
      exec .sts { s with inputs := s.inputs.tail } = .next t ∧ s.op = 1 ∧ s.upc.toNat = 42 :=
  ⟨atUop 1 42 count, _, rfl, rfl, rfl, rfl, rfl, rfl⟩
theorem witness_BookkeepingAfterAUop_dec_last :
    ∃ s t : State, s.ports.rst = false ∧ s.busy = true ∧ s.fetch = .ok .sts ∧
      exec .sts { s with inputs := s.inputs.tail } = .next t ∧ s.op = 2 ∧ s.upc.toNat = 42 :=
  ⟨atUop 2 42 count, _, rfl, rfl, rfl, rfl, rfl, rfl⟩
theorem witness_BookkeepingAfterAUop_init :
    ∃ s t : State, s.ports.rst = false ∧ s.busy = true ∧ s.fetch = .ok .ibld ∧
      exec .ibld { s with inputs := s.inputs.tail } = .next t ∧ s.op = 3 ∧ s.upc.toNat = 0 :=
  ⟨atUop 3 0 count, _, rfl, rfl, rfl, rfl, rfl, rfl⟩
theorem witness_BookkeepingAfterAUop_not_last :
    ∃ s t : State, s.ports.rst = false ∧ s.busy = true ∧ s.fetch = .ok (.ark 10) ∧
      exec (.ark 10) { s with inputs := s.inputs.tail } = .next t ∧ s.op = 1 ∧ s.upc.toNat = 41 :=
  ⟨atUop 1 41 count, _, rfl, rfl, rfl, rfl, rfl, rfl⟩

theorem witness_PriorityOfEvents_reset : (idleWith [resetting]).ports.rst = true := rfl
theorem witness_PriorityOfEvents_busy :
    (atUop 1 42 count).busy = true ∧ (ask 3 0 0).rst = false ∧ (ask 2 keyK blockC).rst = false ∧
      (atUop 1 42 count).ports.rst = false ∧ (atUop 1 42 count).fetch = .ok .sts :=
  ⟨rfl, rfl, rfl, rfl, rfl⟩
theorem witness_PriorityOfEvents_accept :
    (idleWith [ask 3 0 0]).ports.rst = false ∧ (idleWith [ask 3 0 0]).Idle ∧
      (idleWith [ask 3 0 0]).ports.cmd ≠ 0 := by decide
theorem witness_PriorityOfEvents_idle :
    (idleWith []).ports.rst = false ∧ (idleWith []).Idle ∧ (idleWith []).ports.cmd = 0 := by decide

/-- The last two uops of an `ENC`, with a command on the ports of one run and none on the other's. -/
theorem witness_InputsAreNotLookedAtWhileBusy :
    ∃ s s' t : State, s.SameButInputs s' ∧ s.inputs ≠ s'.inputs ∧ s.NoReset 2 ∧ s'.NoReset 2 ∧
      (∀ k < 2, ∀ u, core.run k s = .next u → u.busy = true) ∧ core.run 2 s = .next t :=
  ⟨{ atUop 1 41 count with inputs := [ask 2 keyK blockC, ask 3 0 0] }, atUop 1 41 count, _, rfl,
    by decide, by decide, by decide, fun k hk u hu => by
      obtain rfl | rfl : k = 0 ∨ k = 1 := by omega
      · cases hu; rfl
      · cases hu; rfl, rfl⟩

theorem witness_IdleCoreHoldsItsState_hold :
    (idleWith [ask 0 keyK 0, ask 0 0 blockP]).Idle ∧
      (idleWith [ask 0 keyK 0, ask 0 0 blockP]).NoCommand 3 := by decide
theorem witness_IdleCoreHoldsItsState_accept :
    ∃ s t : State, step s = .next t ∧ s.ports.rst = false ∧ s.Idle ∧ s.ports.cmd ≠ 0 :=
  ⟨idleWith [ask 1 keyK blockP], _, rfl, rfl, rfl, by decide⟩
/-- Not accepted: for want of a command, for a busy core, for reset. -/
theorem witness_IdleCoreHoldsItsState_no_command :
    ∃ s t : State, step s = .next t ∧ ¬(s.ports.rst = false ∧ s.Idle ∧ s.ports.cmd ≠ 0) ∧
      s.Idle ∧ s.ports.rst = false :=
  ⟨idleWith [], _, rfl, by decide, rfl, rfl⟩
theorem witness_IdleCoreHoldsItsState_busy :
    ∃ s t : State, step s = .next t ∧ ¬(s.ports.rst = false ∧ s.Idle ∧ s.ports.cmd ≠ 0) ∧
      s.ports.rst = false ∧ s.ports.cmd ≠ 0 :=
  ⟨{ atUop 1 0 count with inputs := [ask 1 keyK blockP] }, _, rfl, by decide, rfl, by decide⟩
theorem witness_IdleCoreHoldsItsState_reset :
    ∃ s t : State, step s = .next t ∧ ¬(s.ports.rst = false ∧ s.Idle ∧ s.ports.cmd ≠ 0) ∧
      s.Idle ∧ s.ports.cmd ≠ 0 :=
  ⟨idleWith [resetting], _, rfl, by decide, rfl, by decide⟩

/-- One edge and two edges of reset, from a busy and from an idle core, for both values of
`INVBOX_AT_RESET`. -/
theorem witness_ResetClearsEverything_built :
    ∃ s : State, 0 < 1 ∧ 1 ≤ s.inputs.length ∧ (∀ p ∈ s.inputs.take 1, p.rst = true) ∧
      s.invBoxAtReset = true ∧ s.busy = true :=
  ⟨{ atUop 1 7 count with inputs := [resetting] }, by decide, by decide, by decide, rfl, rfl⟩
theorem witness_ResetClearsEverything_drawn :
    ∃ s : State, 0 < 2 ∧ 2 ≤ s.inputs.length ∧ (∀ p ∈ s.inputs.take 2, p.rst = true) ∧
      s.invBoxAtReset = false :=
  ⟨{ idleWith [resetting, resetting] with invBoxAtReset := false }, by decide, by decide, by decide,
    rfl⟩

theorem witness_UnbuiltTableIsDrawnAfresh :
    ∃ s : State, s.ports.rst = true ∧ s.invBoxAtReset = false :=
  ⟨{ idleWith [resetting] with invBoxAtReset := false }, rfl, rfl⟩

theorem witness_EveryStepKeepsTheInvariant_busy :
    ∃ s t : State, s.Inv ∧ step s = .next t ∧ s.busy = true ∧ s.upc = 42 :=
  ⟨atUop 1 42 count, _, ⟨by decide, by decide, by decide, fun _ => rfl⟩, rfl, rfl, rfl⟩
theorem witness_EveryStepKeepsTheInvariant_idle :
    ∃ s t : State, s.Inv ∧ step s = .next t ∧ s.Idle ∧ s.ports.cmd = 3 :=
  ⟨idleWith [ask 3 0 0], _, ⟨by decide, by decide, by decide, fun _ => rfl⟩, rfl, rfl, rfl⟩
theorem witness_EveryStepKeepsTheInvariant_reset :
    ∃ s t : State, s.Inv ∧ step s = .next t ∧ s.ports.rst = true ∧ s.invBoxAtReset = false :=
  ⟨{ idleWith [resetting] with invBoxAtReset := false }, _,
    ⟨by decide, by decide, by decide, fun h => nomatch h⟩, rfl, rfl, rfl⟩

theorem witness_StepAlwaysAnswersNext_inv : (atUop 2 42 count).Inv :=
  ⟨by decide, by decide, by decide, fun _ => rfl⟩
theorem witness_StepAlwaysAnswersNext_noMicroprogram :
    step (atUop 0 0 count) = .refused .noMicroprogram := rfl
theorem witness_StepAlwaysAnswersNext_upcPastEnd :
    step (atUop 3 1 count) = .refused (.upcPastEnd 1) ∧
      step (atUop 1 43 count) = .refused (.upcPastEnd 43) := ⟨rfl, rfl⟩

/-- Each column of the access matrix is written by some step. -/
theorem witness_AccessMatrix_accept :
    ∃ s t : State, step s = .next t ∧ s.ports.rst = false ∧ t.kreg ≠ s.kreg ∧ t.dreg ≠ s.dreg ∧
      t.op ≠ s.op ∧ t.busy ≠ s.busy ∧ t.done ≠ s.done :=
  ⟨idleWith [ask 2 1 2], _, rfl, rfl, by decide, by decide, by decide, by decide, by decide⟩
theorem witness_AccessMatrix_w :
    ∃ s t : State, step s = .next t ∧ s.ports.rst = false ∧ t.w ≠ s.w ∧ t.upc ≠ s.upc :=
  ⟨atUop 1 0 count, _, rfl, rfl, by decide +kernel, by decide⟩
theorem witness_AccessMatrix_invBox :
    ∃ s t : State, step s = .next t ∧ s.ports.rst = false ∧ t.invBox ≠ s.invBox :=
  ⟨{ atUop 3 0 count with invBox := Vector.replicate 256 0 }, _, rfl, rfl, by decide +kernel⟩
theorem witness_AccessMatrix_dout :
    ∃ s t : State, step s = .next t ∧ s.ports.rst = false ∧ t.dout ≠ s.dout ∧ t.upc ≠ s.upc :=
  ⟨atUop 1 42 count, _, rfl, rfl, by decide, by decide⟩
theorem witness_AccessMatrix_s :
    ∃ s t : State, step s = .next t ∧ s.ports.rst = false ∧ t.s ≠ s.s :=
  ⟨atUop 1 3 count, _, rfl, rfl, by decide⟩

theorem witness_BuiltTableStaysBuilt_kept :
    ∃ s t : State, step s = .next t ∧ s.Built ∧ s.ports.rst = false ∧ s.invBoxAtReset = false :=
  ⟨{ atUop 2 4 count with invBoxAtReset := false }, _, rfl, rfl, rfl, rfl⟩
theorem witness_BuiltTableStaysBuilt_reset :
    ∃ s t : State, step s = .next t ∧ s.ports.rst = true ∧ s.invBoxAtReset = true ∧ ¬s.Built :=
  ⟨{ idleWith [resetting] with invBox := Vector.replicate 256 0 }, _, rfl, rfl, rfl,
    by decide +kernel⟩
theorem witness_BuiltTableStaysBuilt_init :
    ∃ s t : State, step s = .next t ∧ s.ports.rst = false ∧ s.busy = true ∧ s.op = 3 ∧ ¬s.Built :=
  ⟨{ atUop 3 0 count with invBox := Vector.replicate 256 0 }, _, rfl, rfl, rfl, rfl,
    by decide +kernel⟩

theorem witness_EveryCommandCompletes_first :
    (atUop 1 0 count).busy = true ∧ (atUop 1 0 count).InProgress ∧
      (atUop 1 0 count).NoReset (lastIndex 1 - 0 + 1) := by decide
theorem witness_EveryCommandCompletes_last :
    (atUop 2 42 count).busy = true ∧ (atUop 2 42 count).InProgress ∧
      (atUop 2 42 count).NoReset (lastIndex 2 - 42 + 1) := by decide
theorem witness_EveryCommandCompletes_init :
    (atUop 3 0 count).busy = true ∧ (atUop 3 0 count).InProgress ∧
      (atUop 3 0 count).NoReset (lastIndex 3 - 0 + 1) := by decide
theorem witness_EveryCommandCompletes_accept :
    ∀ c ∈ [1#2, 2#2, 3#2], ∃ t : State, (idleWith [ask c 0 0]).Idle ∧
      (idleWith [ask c 0 0]).ports.rst = false ∧ (idleWith [ask c 0 0]).ports.cmd ≠ 0 ∧
      step (idleWith [ask c 0 0]) = .next t := by
  intro c hc
  simp only [List.mem_cons, List.not_mem_nil, or_false] at hc
  obtain rfl | rfl | rfl := hc
  · exact ⟨_, rfl, rfl, by decide, rfl⟩
  · exact ⟨_, rfl, rfl, by decide, rfl⟩
  · exact ⟨_, rfl, rfl, by decide, rfl⟩

theorem witness_DoutChangesOnlyAtCompletion :
    ∃ s t : State, s.Inv ∧ step s = .next t ∧ s.ports.rst = false ∧ t.dout ≠ s.dout :=
  ⟨atUop 2 42 count, _, ⟨by decide, by decide, by decide, fun _ => rfl⟩, rfl, rfl, by decide⟩

/-- Commands go on while the first one runs: the ports are looked at once. -/
theorem witness_EncryptCommandDeliversTheCiphertext :
    ∃ s : State, s.Idle ∧ s.ports = ask 1 keyK blockP ∧ s.NoReset 44 ∧ ¬s.Built :=
  ⟨{ idleWith (ask 1 keyK blockP :: List.replicate 50 (ask 2 0 0)) with
    invBox := Vector.replicate 256 0 }, rfl, rfl, by decide, by decide +kernel⟩
theorem witness_DecryptCommandDeliversThePlaintext_built :
    ∃ s : State, s.Idle ∧ s.ports = ask 2 keyK blockC ∧ s.NoReset 44 ∧ s.Built :=
  ⟨idleWith [ask 2 keyK blockC], rfl, rfl, by decide, rfl⟩
theorem witness_DecryptCommandDeliversThePlaintext_unbuilt :
    ∃ s : State, s.Idle ∧ s.ports = ask 2 keyK blockC ∧ s.NoReset 44 ∧ ¬s.Built :=
  ⟨{ idleWith [ask 2 keyK blockC] with invBox := Vector.replicate 256 0 }, rfl, rfl, by decide,
    by decide +kernel⟩
theorem witness_InitCommandBuildsTheTable :
    ∃ s : State, s.Idle ∧ s.ports = ask 3 keyK blockP ∧ s.NoReset 2 ∧ ¬s.Built :=
  ⟨{ idleWith [ask 3 keyK blockP] with invBox := Vector.replicate 256 0 }, rfl, rfl, by decide,
    by decide +kernel⟩
/-- An `ENC` that has run to its end, then `DEC` on another idle core that got its result. -/
theorem witness_RoundTripOnThePorts_later :
    ∃ s t s' : State, s.Idle ∧ s.ports = ask 1 keyK blockP ∧ s.NoReset 44 ∧
      core.run 44 s = .next t ∧ s'.Idle ∧ s'.Built ∧ s'.ports = ask 2 keyK t.dout ∧
      s'.NoReset 44 := by
  have h : look State.dout (core.run 44 (idleWith [ask 1 keyK blockP])) = some blockC := by
    decide +kernel
  cases e : core.run 44 (idleWith [ask 1 keyK blockP]) with
  | next t =>
    rw [e] at h
    exact ⟨_, t, idleWith [ask 2 keyK blockC], rfl, rfl, by decide, e, rfl, rfl,
      congrArg (ask 2 keyK) (Option.some.inj h).symm, by decide⟩
  | fault f => exact nomatch f
  | refused r =>
    rw [e] at h
    cases h
theorem witness_RoundTripOnThePorts_next_edge :
    ∃ s : State, s.Idle ∧ s.Built ∧ s.NoReset 88 ∧ s.inputs[0]? = some (ask 1 keyK blockP) ∧
      s.inputs[44]? = some (ask 2 keyK (encryptBlock keyK blockP)) :=
  ⟨idleWith (ask 1 keyK blockP :: (List.replicate 43 Ports.quiet ++
    [ask 2 keyK (encryptBlock keyK blockP)])), rfl, rfl, by
      intro p hp
      have hp := List.mem_of_mem_take hp
      simp only [idleWith, List.mem_cons, List.mem_append, List.mem_replicate,
        List.not_mem_nil, or_false] at hp
      obtain rfl | ⟨-, rfl⟩ | rfl := hp <;> rfl, rfl, rfl⟩

end Sys2Proof.Machine.Tests
end

section
/-! SUPPORT. What the invariant and the access matrix of 10_state.md turn on: which element of the
state a uop, the bookkeeping and accept write (R33). -/

namespace Sys2Proof.Machine

variable {s t : State}

/-! The bookkeeping writes `upc`, `busy` and `done` only (R173). -/

/-- The bookkeeping as one update of the three elements it may write. -/
theorem State.bookkeep_eq_update (s : State) :
    s.bookkeep = { s with
      upc := if s.upc.toNat = lastIndex s.op then 0 else s.upc + 1
      busy := if s.upc.toNat = lastIndex s.op then false else s.busy
      done := if s.upc.toNat = lastIndex s.op then true else s.done } := by
  rw [bookkeep_eq]
  split <;> rfl

@[simp] theorem State.bookkeep_s (s : State) : s.bookkeep.s = s.s := by
  rw [bookkeep_eq_update]
@[simp] theorem State.bookkeep_w (s : State) : s.bookkeep.w = s.w := by
  rw [bookkeep_eq_update]
@[simp] theorem State.bookkeep_invBox (s : State) : s.bookkeep.invBox = s.invBox := by
  rw [bookkeep_eq_update]
@[simp] theorem State.bookkeep_kreg (s : State) : s.bookkeep.kreg = s.kreg := by
  rw [bookkeep_eq_update]
@[simp] theorem State.bookkeep_dreg (s : State) : s.bookkeep.dreg = s.dreg := by
  rw [bookkeep_eq_update]
@[simp] theorem State.bookkeep_dout (s : State) : s.bookkeep.dout = s.dout := by
  rw [bookkeep_eq_update]
@[simp] theorem State.bookkeep_op (s : State) : s.bookkeep.op = s.op := by
  rw [bookkeep_eq_update]
@[simp] theorem State.bookkeep_upc (s : State) :
    s.bookkeep.upc = if s.upc.toNat = lastIndex s.op then 0 else s.upc + 1 := by
  rw [bookkeep_eq_update]
@[simp] theorem State.bookkeep_busy (s : State) :
    s.bookkeep.busy = if s.upc.toNat = lastIndex s.op then false else s.busy := by
  rw [bookkeep_eq_update]
@[simp] theorem State.bookkeep_done (s : State) :
    s.bookkeep.done = if s.upc.toNat = lastIndex s.op then true else s.done := by
  rw [bookkeep_eq_update]
@[simp] theorem State.bookkeep_inputs (s : State) : s.bookkeep.inputs = s.inputs := by
  rw [bookkeep_eq_update]
@[simp] theorem State.bookkeep_invBoxAtReset (s : State) :
    s.bookkeep.invBoxAtReset = s.invBoxAtReset := by
  rw [bookkeep_eq_update]
@[simp] theorem State.bookkeep_draws (s : State) : s.bookkeep.draws = s.draws := by
  rw [bookkeep_eq_update]

/-! The uops: each writes one element of the data state. -/

/-- Everything a uop can do: `KEXP` writes `w`, `IBLD` the table, `STS` writes `dout`, and each of
the others only the state words (R33). -/
theorem exec_uop_cases {u : Instr} (hu : u.isCommand = false) (h : exec u s = .next t) :
    (u = .kexp ∧ t = { s with w := expandKey s.kreg }) ∨
    (u = .ibld ∧ t = { s with invBox := buildInvBox s.invBox }) ∨
    (u = .sts ∧ t = { s with dout := stateToBytes s.s }) ∨
    ((u ∈ [Instr.lds, .sub, .isub, .shr, .ishr, .mix, .imix] ∨ ∃ n, u = .ark n) ∧
      ∃ v, t = s.withWords v) := by
  cases u with
  | nop | enc | dec | init => cases hu
  | kexp => cases h; exact .inl ⟨rfl, rfl⟩
  | ibld => cases h; exact .inr (.inl ⟨rfl, rfl⟩)
  | sts => cases h; exact .inr (.inr (.inl ⟨rfl, rfl⟩))
  | ark n =>
    simp only [exec, execArk] at h
    split at h
    · cases h; exact .inr (.inr (.inr ⟨.inr ⟨n, rfl⟩, _, rfl⟩))
    · cases h
  | lds | sub | shr | mix | isub | ishr | imix =>
    cases h; exact .inr (.inr (.inr ⟨.inl (by decide), _, rfl⟩))

/-- Only `KEXP` writes `w` (R33, R153). -/
theorem exec_uop_writes_w {u : Instr} (hu : u.isCommand = false) (h : exec u s = .next t)
    (hw : t.w ≠ s.w) : u = .kexp := by
  obtain ⟨e, -⟩ | ⟨-, rfl⟩ | ⟨-, rfl⟩ | ⟨-, v, rfl⟩ := exec_uop_cases hu h
  · exact e
  all_goals exact absurd rfl hw

/-- Only `IBLD` writes the table (R33, R109). -/
theorem exec_uop_writes_invBox {u : Instr} (hu : u.isCommand = false) (h : exec u s = .next t)
    (hw : t.invBox ≠ s.invBox) : u = .ibld := by
  obtain ⟨-, rfl⟩ | ⟨e, -⟩ | ⟨-, rfl⟩ | ⟨-, v, rfl⟩ := exec_uop_cases hu h
  · exact absurd rfl hw
  · exact e
  all_goals exact absurd rfl hw

/-- Only `STS` writes `dout` (R33, R101). -/
theorem exec_uop_writes_dout {u : Instr} (hu : u.isCommand = false) (h : exec u s = .next t)
    (hw : t.dout ≠ s.dout) : u = .sts := by
  obtain ⟨-, rfl⟩ | ⟨-, rfl⟩ | ⟨e, -⟩ | ⟨-, v, rfl⟩ := exec_uop_cases hu h
  · exact absurd rfl hw
  · exact absurd rfl hw
  · exact e
  · exact absurd rfl hw

/-- Only `LDS` and the seven round transforms write the state words (R33, R137). -/
theorem exec_uop_writes_s {u : Instr} (hu : u.isCommand = false) (h : exec u s = .next t)
    (hw : t.s ≠ s.s) :
    u ∈ [Instr.lds, .sub, .isub, .shr, .ishr, .mix, .imix] ∨ ∃ n, u = .ark n := by
  obtain ⟨-, rfl⟩ | ⟨-, rfl⟩ | ⟨-, rfl⟩ | ⟨e, -⟩ := exec_uop_cases hu h
  · exact absurd rfl hw
  · exact absurd rfl hw
  · exact absurd rfl hw
  · exact e

/-- `IBLD` leaves the built table whatever the table held (R109). -/
theorem built_of_exec_ibld (h : exec .ibld s = .next t) : t.Built := by
  cases h
  simp [State.Built, buildInvBox_eq_builtInvBox]

/-- A uop keeps a built table: it either leaves the table alone or builds it (R34). -/
theorem exec_uop_keeps_built {u : Instr} (hu : u.isCommand = false) (h : exec u s = .next t)
    (hs : s.Built) : t.Built := by
  by_cases hw : t.invBox = s.invBox
  · exact hw.trans hs
  · obtain rfl := exec_uop_writes_invBox hu h hw
    exact built_of_exec_ibld h

/-- The one uop of `INIT` is `IBLD` (R80). -/
theorem fetch_of_op_init {u : Instr} (hop : s.op = 3) (h : s.fetch = .ok u) : u = .ibld := by
  obtain ⟨word, hw, hd⟩ := fetch_eq_ok.mp h
  rw [hop] at hw
  have hmem : word ∈ uromInit := List.mem_of_getElem? hw
  obtain rfl : word = 0x80 := List.mem_singleton.mp hmem
  cases hd
  rfl

end Sys2Proof.Machine
end

section
/-! SUPPORT. The control invariant of 10_state.md R28, R29, R34: what establishes it, and that
accept and the bookkeeping keep it. -/

namespace Sys2Proof.Machine

variable {s t : State}

theorem inv_afterReset (b : Bool) (draws : Nat) (inputs : List Ports) :
    (State.afterReset b draws inputs).Inv := by
  refine ⟨nofun, fun _ => rfl, fun _ => rfl, ?_⟩
  rintro (rfl : b = true)
  rfl

/-- Never are `busy` and `done` both 1 (R29). -/
theorem not_busy_and_done_of_inv (h : s.Inv) : ¬(s.busy = true ∧ s.done = true) := by
  rintro ⟨hb, hd⟩
  obtain ⟨-, -, hd'⟩ := h.1 hb
  exact absurd (hd.symm.trans hd') (by decide)

/-- An accepted command is at index 0 of its microprogram (R171). -/
theorem inv_accept {code : CmdBits} (hc : code ≠ 0) (key din : Block)
    (hbuilt : s.invBoxAtReset = true → s.Built) : (s.accept code key din).Inv :=
  ⟨fun _ => ⟨hc, Nat.zero_le _, rfl⟩, nofun, fun _ => rfl, hbuilt⟩

theorem lastIndex_le (op : CmdBits) : lastIndex op ≤ 42 := by
  unfold lastIndex
  split <;> decide

/-- The bookkeeping of a command in progress ends it at its last index, and otherwise moves to an
index that it has, without wrapping the counter (R173). -/
theorem inv_bookkeep (hb : s.busy = true) (hp : s.InProgress)
    (hbuilt : s.invBoxAtReset = true → s.Built) : s.bookkeep.Inv := by
  obtain ⟨hop, hle, hdone⟩ := hp
  rw [bookkeep_eq]
  split
  · exact ⟨nofun, fun _ => rfl, fun h => absurd h hop, hbuilt⟩
  next hne =>
    have hlast := lastIndex_le s.op
    have hnext : (s.upc + 1).toNat ≤ lastIndex s.op := by bv_omega
    exact ⟨fun _ => ⟨hop, hnext, hdone⟩, fun h => absurd (hb.symm.trans h) (by decide),
      fun h => absurd h hop, hbuilt⟩

/-- A uop keeps a command in progress, and the invariant with it (R33, R34). -/
theorem exec_uop_keeps_inv {u : Instr} (hu : u.isCommand = false) (h : exec u s = .next t)
    (hs : s.Inv) : t.Inv := by
  obtain ⟨hop, hupc, hbusy, hdone, -, -, -, hparam, -⟩ := exec_uop_control hu h
  obtain ⟨hprog, hidle, hop0, hbuilt⟩ := hs
  unfold State.Inv State.InProgress
  rw [hop, hupc, hbusy, hdone, hparam]
  exact ⟨hprog, hidle, hop0, fun hp => exec_uop_keeps_built hu h (hbuilt hp)⟩

theorem step_keeps_inv (hs : s.Inv) (h : step s = .next t) : t.Inv := by
  have he : s.nextEdge.Inv := hs
  obtain ⟨-, rfl⟩ | ⟨-, hb, u, v, hf, hv, rfl⟩ | ⟨-, -, rfl⟩ := step_next_cases h
  · exact inv_afterReset _ _ _
  · obtain ⟨hu, -⟩ := fetch_ok_uop hf
    obtain ⟨-, -, hbusy, -⟩ := exec_uop_control hu hv
    have hvb : v.busy = true := hbusy.trans hb
    obtain ⟨hprog, -, -, hbuilt⟩ := exec_uop_keeps_inv hu hv he
    exact inv_bookkeep hvb (hprog hvb) hbuilt
  · split
    · exact he
    next hc =>
      obtain ⟨-, -, -, hbuilt⟩ := he
      exact inv_accept hc _ _ hbuilt

/-- Settles O43: reset establishes the invariant, a uop with its bookkeeping and accept keep it. -/
theorem everyStepKeepsTheInvariant : Obligations.EveryStepKeepsTheInvariant := by
  intro s t hs h
  have ht := step_keeps_inv hs h
  exact ⟨ht, not_busy_and_done_of_inv ht⟩

/-- Settles O42: the reset tuple is idle at `upc` 0 with `op` 00, and built if the parameter says
so. -/
theorem invariantHoldsAtReset : Obligations.InvariantHoldsAtReset :=
  ⟨inv_afterReset _ _ _, inv_afterReset⟩

end Sys2Proof.Machine
end

section
/-! SUPPORT. The access matrix of 10_state.md R33, for a busy and for an idle core, and the table
that stays built (R34). -/

namespace Sys2Proof.Machine

variable {s t : State}

theorem step_keeps_built (h : step s = .next t) (hs : s.Built)
    (hr : s.ports.rst = false ∨ s.invBoxAtReset = true) : t.Built := by
  obtain ⟨hrst, rfl⟩ | ⟨-, -, u, v, hf, hv, rfl⟩ | ⟨-, -, rfl⟩ := step_next_cases h
  · have hparam : s.invBoxAtReset = true := by simpa [hrst] using hr
    simp [State.Built, hparam]
  · obtain ⟨hu, -⟩ := fetch_ok_uop hf
    exact v.bookkeep_invBox.trans (exec_uop_keeps_built hu hv hs)
  · split <;> exact hs

theorem built_of_reset_step (h : step s = .next t) (hr : s.ports.rst = true)
    (hparam : s.invBoxAtReset = true) : t.Built := by
  rw [step_of_rst hr] at h
  cases h
  simp [State.Built, hparam]

theorem built_of_init_step (h : step s = .next t) (hr : s.ports.rst = false)
    (hb : s.busy = true) (hop : s.op = 3) : t.Built := by
  obtain ⟨hr', -⟩ | ⟨-, -, u, v, hf, hv, rfl⟩ | ⟨-, hb', -⟩ := step_next_cases h
  · exact absurd (hr.symm.trans hr') (by decide)
  · obtain rfl := fetch_of_op_init hop hf
    exact v.bookkeep_invBox.trans (built_of_exec_ibld hv)
  · exact absurd (hb.symm.trans hb') (by decide)

theorem sbox_bijective : Function.Bijective sbox :=
  Function.bijective_iff_has_inverse.mpr
    ⟨readInvBox builtInvBox, readInvBox_builtInvBox_sbox, sbox_readInvBox_builtInvBox⟩

theorem readInvBox_builtInvBox_bijective : Function.Bijective (readInvBox builtInvBox) :=
  Function.bijective_iff_has_inverse.mpr
    ⟨sbox, sbox_readInvBox_builtInvBox, readInvBox_builtInvBox_sbox⟩

/-- Settles O46: no uop but `IBLD` writes the table, and `IBLD` builds it; the built table and
`SBox` are inverse to each other. -/
theorem builtTableStaysBuilt : Obligations.BuiltTableStaysBuilt := by
  refine ⟨fun s t => step_keeps_built, fun s t => built_of_reset_step,
    fun s t => built_of_init_step, fun s hs => ?_⟩
  rw [show s.invBox = builtInvBox from hs]
  exact ⟨sbox_bijective, readInvBox_builtInvBox_bijective,
    fun x => ⟨readInvBox_builtInvBox_sbox x, sbox_readInvBox_builtInvBox x⟩⟩

/-- Settles O45: the columns of R33, for a busy core from what its uop and the bookkeeping write,
for an idle core from what accept writes. -/
theorem accessMatrix : Obligations.AccessMatrix := by
  intro s t h hr
  obtain ⟨hr', -⟩ | ⟨-, hb, u, v, hf, hv, rfl⟩ | ⟨-, hb, rfl⟩ := step_next_cases h
  · exact absurd (hr.symm.trans hr') (by decide)
  · obtain ⟨hu, -⟩ := fetch_ok_uop hf
    obtain ⟨hop, hupc, hbusy, hdone, hkreg, hdreg, hinputs, hparam, hdraws⟩ :=
      exec_uop_control hu hv
    refine ⟨?latches, ?w, ?invBox, ?dout, ?words, ?flags, fun _ => .inl hb, ?own⟩
    case latches => simp [hop, hkreg, hdreg]
    case w =>
      intro hw
      rw [State.bookkeep_w] at hw
      obtain rfl := exec_uop_writes_w hu hv hw
      exact ⟨hb, hf⟩
    case invBox =>
      intro hw
      rw [State.bookkeep_invBox] at hw
      obtain rfl := exec_uop_writes_invBox hu hv hw
      exact ⟨hb, hf⟩
    case dout =>
      intro hw
      rw [State.bookkeep_dout] at hw
      obtain rfl := exec_uop_writes_dout hu hv hw
      exact ⟨hb, hf⟩
    case words =>
      intro hw
      rw [State.bookkeep_s] at hw
      exact ⟨hb, u, hf, exec_uop_writes_s hu hv hw⟩
    case flags =>
      intro hw
      refine .inr ⟨hb, ?_⟩
      by_contra hne
      simp [hupc, hop, hne, hbusy, hdone] at hw
    case own => simp [hparam, hdraws, hinputs]
  · split
    · simp
    next hc =>
      have haccept : s.Idle ∧ s.ports.cmd ≠ 0 := ⟨hb, hc⟩
      exact ⟨fun _ => haccept, fun hw => absurd rfl hw, fun hw => absurd rfl hw,
        fun hw => absurd rfl hw, fun hw => absurd rfl hw, fun _ => .inl haccept,
        fun _ => .inr haccept, rfl, rfl, rfl⟩

end Sys2Proof.Machine
end

section
/-! SUPPORT. The decoder of uop words, said once (30_encoding.md R74 to R76, R81): the two fields of
a word, the three groups of kinds, which words are refused, and that a word decodes to a uop exactly
when it is the word of that uop. -/

namespace Sys2Proof

variable {w : UopWord} {u i : Instr}

/-! The fields of a uop word (R75). -/

@[simp] theorem uopKind_uopWord (kind arg : BitVec 4) : uopKind (uopWord kind arg) = kind :=
  BitVec.extractLsb'_append_eq_left

@[simp] theorem uopArg_uopWord (kind arg : BitVec 4) : uopArg (uopWord kind arg) = arg :=
  BitVec.extractLsb'_append_eq_right

theorem uopWord_uopKind_uopArg (w : UopWord) : uopWord (uopKind w) (uopArg w) = w :=
  (BitVec.extractLsb'_append_extractLsb'_eq_extractLsb' rfl).trans BitVec.extractLsb'_eq_self

/-- Bit 7 of a word is bit 3 of its kind (R76). -/
theorem getLsbD_seven_uopWord (kind arg : BitVec 4) :
    (uopWord kind arg).getLsbD 7 = kind.getLsbD 3 :=
  BitVec.getLsbD_append

/-- The word of `ARK n` as R76 gives it. -/
theorem uopWord_ark (n : BitVec 4) : uopWord 0x7 n = 0x70 + n.setWidth 8 := by
  decide +revert

/-! The two argument checks (R74, R81). -/

theorem noArg_eq_ok : noArg w i = .ok u ↔ uopArg w = 0 ∧ i = u := by
  by_cases h : uopArg w = 0#4 <;> simp [noArg, h]

theorem noArg_eq_error : (∃ e, noArg w i = .error e) ↔ uopArg w ≠ 0 := by
  by_cases h : uopArg w = 0#4 <;> simp [noArg, h]

theorem arkArg_eq_ok : arkArg w = .ok u ↔ (uopArg w).toNat ≤ 10 ∧ .ark (uopArg w) = u := by
  unfold arkArg
  split <;> simp [*]

theorem arkArg_eq_error : (∃ e, arkArg w = .error e) ↔ 11 ≤ (uopArg w).toNat := by
  unfold arkArg
  split <;> simp <;> omega

/-! The three groups of kinds (R76, R81). -/

/-- The kinds no uop has (R76, R81). -/
def reservedKinds : List (BitVec 4) := [0x0, 0x9, 0xA, 0xB, 0xF]

theorem decodeUop_of_reservedKind (h : uopKind w ∈ reservedKinds) :
    decodeUop w = .error (.reservedKind (uopKind w)) := by
  unfold decodeUop
  generalize uopKind w = k at h
  simp only [reservedKinds, List.mem_cons, List.not_mem_nil, or_false] at h
  obtain rfl | rfl | rfl | rfl | rfl := h <;> rfl

theorem decodeUop_of_arkKind (h : uopKind w = 0x7) : decodeUop w = arkArg w := by
  rw [decodeUop, h]
  rfl

/-- The kinds of the operations without an operand are all the others (R76). -/
theorem mem_noArgKinds {k : BitVec 4} (hr : k ∉ reservedKinds) (ha : k ≠ 0x7) :
    k ∈ [0x1, 0x2, 0x3, 0x4, 0x5, 0x6, 0x8, 0xC, 0xD, 0xE] := by
  decide +revert

theorem decodeUop_of_noArgKind (hr : uopKind w ∉ reservedKinds) (ha : uopKind w ≠ 0x7) :
    ∃ i, decodeUop w = noArg w i := by
  have hk := mem_noArgKinds hr ha
  unfold decodeUop
  generalize uopKind w = k at hk
  simp only [List.mem_cons, List.not_mem_nil, or_false] at hk
  obtain rfl | rfl | rfl | rfl | rfl | rfl | rfl | rfl | rfl | rfl := hk <;> exact ⟨_, rfl⟩

/-! What the decoder refuses and what it accepts. -/

/-- The reserved words of R81, and no others, are refused. -/
theorem decodeUop_eq_error_iff :
    (∃ e, decodeUop w = .error e) ↔
      uopKind w ∈ reservedKinds ∨ (uopKind w = 0x7 ∧ 11 ≤ (uopArg w).toNat) ∨
        (uopKind w ≠ 0x7 ∧ uopArg w ≠ 0) := by
  by_cases hr : uopKind w ∈ reservedKinds
  · simp [decodeUop_of_reservedKind hr, hr]
  by_cases ha : uopKind w = 0x7
  · rw [decodeUop_of_arkKind ha, arkArg_eq_error]
    tauto
  · -- The remaining kinds have no operand: only their argument can be wrong.
    obtain ⟨i, hi⟩ := decodeUop_of_noArgKind hr ha
    rw [hi, noArg_eq_error]
    tauto

/-- A word is built from its two fields; the kind is compared as the number that the decoder
matches on. -/
theorem uopWord_eq {kind arg : BitVec 4} (hk : (uopKind w).toNat = kind.toNat)
    (ha : uopArg w = arg) : uopWord kind arg = w := by
  rw [← BitVec.eq_of_toNat_eq hk, ← ha, uopWord_uopKind_uopArg]

theorem encode_of_decodeUop (h : decodeUop w = .ok u) :
    u.wellFormed = true ∧ encode u = .uop w := by
  unfold decodeUop at h
  split at h
  case h_7 hk =>
    obtain ⟨hn, rfl⟩ := arkArg_eq_ok.mp h
    exact ⟨decide_eq_true hn, congrArg Code.uop (uopWord_eq hk rfl)⟩
  case h_12 => cases h
  all_goals
    obtain ⟨ha, rfl⟩ := noArg_eq_ok.mp h
    exact ⟨rfl, congrArg Code.uop (uopWord_eq ‹_› ha)⟩

theorem decodeUop_of_encode (hu : u.wellFormed = true) (h : encode u = .uop w) :
    decodeUop w = .ok u := by
  cases u with
  | nop | enc | dec | init => cases h
  | ark n =>
    cases h
    rw [decodeUop_of_arkKind (uopKind_uopWord _ _), arkArg_eq_ok, uopArg_uopWord]
    exact ⟨of_decide_eq_true hu, rfl⟩
  | kexp | lds | sts | sub | shr | mix | ibld | isub | ishr | imix => cases h; rfl

/-- A uop word decodes to the uop whose word it is, and to nothing else (R76, R81). -/
theorem decode_uop_eq_ok : decode (.uop w) = .ok u ↔ u.wellFormed = true ∧ encode u = .uop w :=
  ⟨encode_of_decodeUop, fun ⟨hu, h⟩ => decodeUop_of_encode hu h⟩

/-- Bit 7 of a uop's word is 1 exactly for the operations of the inverse direction or table
(R76). -/
theorem getLsbD_seven_of_encode (h : encode u = .uop w) :
    w.getLsbD 7 = true ↔ u ∈ [Instr.ibld, .isub, .ishr, .imix] := by
  cases u with
  | nop | enc | dec | init => cases h
  | ark n =>
    cases h
    rw [getLsbD_seven_uopWord]
    simp
  | kexp | lds | sts | sub | shr | mix | ibld | isub | ishr | imix => cases h; decide

end Sys2Proof
end

section
/-! SUPPORT. The statements about the encodings and the microprograms (30_encoding.md R76, R78 to
R81). -/

namespace Sys2Proof.Machine

/-- Settles O2: a word decodes to a uop exactly when it is the uop's word, so bit 7 is read off the
words of R76; the reserved kinds are refused whatever the argument. -/
theorem uopKindCodes : Obligations.UopKindCodes := by
  refine ⟨by decide, ?ark, ?bit7, ?counterparts, ?reserved⟩
  case ark =>
    intro n hn
    exact decode_uop_eq_ok.mpr ⟨decide_eq_true hn, congrArg Code.uop (uopWord_ark n)⟩
  case bit7 =>
    intro w u h
    obtain ⟨-, he⟩ := decode_uop_eq_ok.mp h
    exact getLsbD_seven_of_encode he
  case counterparts =>
    intro p hp
    simp only [List.mem_cons, List.not_mem_nil, or_false] at hp
    obtain rfl | rfl | rfl := hp <;> exact ⟨_, rfl, rfl⟩
  case reserved =>
    intro w h
    exact ⟨_, decodeUop_of_reservedKind h⟩

/-- Every word of a microprogram decodes (R81). -/
theorem exists_decode_of_mem_urom {op : CmdBits} {w : UopWord} (h : w ∈ urom op) :
    ∃ u, decode (.uop w) = .ok u := by
  have hw := List.all_eq_true.mp (urom_isUopWord op) w h
  rw [isUopWord] at hw
  split at hw
  · exact ⟨_, ‹_›⟩
  · cases hw

/-- Settles O3: by the three groups of kinds, and since every word of a microprogram is a uop's. -/
theorem reservedUopWordsAreRefused : Obligations.ReservedUopWordsAreRefused :=
  ⟨fun w => ⟨decodeCommand w, rfl⟩, fun _ => decodeUop_eq_error_iff,
    fun _ _ => exists_decode_of_mem_urom⟩

/-- With `INVBOX_AT_RESET = true`, `IBLD` leaves the table a reset leaves: both are the built one
(R80, R109, R221). -/
theorem exec_ibld_eq_resetEvent_invBox {s : State} (h : s.invBoxAtReset = true) :
    exec .ibld s = .next { s with invBox := s.resetEvent.invBox } := by
  simp [exec, execIbld, buildInvBox_eq_builtInvBox, h]

/-- Settles O5: the entries are read off the constant tables; the effect of `IBLD` is the law that
its loop leaves the built table. -/
theorem microprogramTables : Obligations.MicroprogramTables :=
  ⟨by decide, by decide, rfl, rfl, rfl, rfl, fun _ => exec_ibld_eq_resetEvent_invBox⟩

end Sys2Proof.Machine
end

section
/-! SUPPORT. The field GF(2^8) of `mul` (40_codec_gf_sbox.md R103 to R105). The multiplier's loop
and the product of polynomials are both bilinear over XOR, and a bilinear map is determined by its
values on the powers x^i of the polynomial basis; so the laws are checked on the basis. -/

namespace Sys2Proof.Machine

/-! Additive maps: addition in the field is XOR (R103). -/

/-- A map of bit vectors that takes XOR to XOR. -/
def XorAdditive {m n : Nat} (f : BitVec m → BitVec n) : Prop :=
  ∀ a b, f (a ^^^ b) = f a ^^^ f b

theorem XorAdditive.map_zero {m n : Nat} {f : BitVec m → BitVec n} (hf : XorAdditive f) :
    f 0 = 0 := by
  have h := hf 0 0
  rwa [BitVec.xor_self, BitVec.xor_self] at h

theorem XorAdditive.comp {l m n : Nat} {f : BitVec m → BitVec n} {g : BitVec l → BitVec m}
    (hf : XorAdditive f) (hg : XorAdditive g) : XorAdditive (fun a => f (g a)) := fun a b =>
  (congrArg f (hg a b)).trans (hf _ _)

theorem xorAdditive_setWidth (m n : Nat) : XorAdditive (fun x : BitVec m => x.setWidth n) :=
  fun _ _ => BitVec.setWidth_xor

/-- The low n + 1 coefficients of a polynomial are its low n ones plus coefficient n times x^n. -/
theorem setWidth_succ_eq_xor_twoPow (x : Byte) (n : Nat) :
    (x.setWidth (n + 1)).setWidth 8 =
      (x.setWidth n).setWidth 8 ^^^ (if x.getLsbD n then BitVec.twoPow 8 n else 0) := by
  apply BitVec.eq_of_getLsbD_eq
  intro i hi
  have bit : (if x.getLsbD n then BitVec.twoPow 8 n else 0).getLsbD i =
      (decide (n = i) && x.getLsbD n) := by
    cases x.getLsbD n <;> simp [hi, eq_comm]
  rw [BitVec.getLsbD_xor, bit]
  simp only [BitVec.getLsbD_setWidth, hi]
  obtain h | rfl | h := Nat.lt_trichotomy i n
  · simp [h, h.ne', Nat.lt_succ_of_lt h]
  · simp
  · simp [h.ne, Nat.not_lt_of_gt h, Nat.not_lt_of_ge (Nat.succ_le_of_lt h)]

/-- An additive map of bytes is determined by its values on the powers of x. -/
theorem XorAdditive.ext {m : Nat} {f g : Byte → BitVec m} (hf : XorAdditive f)
    (hg : XorAdditive g)
    (h : ∀ i : Fin 8, f (BitVec.twoPow 8 i) = g (BitVec.twoPow 8 i)) (x : Byte) : f x = g x := by
  have low : ∀ n ≤ 8, f ((x.setWidth n).setWidth 8) = g ((x.setWidth n).setWidth 8) := by
    intro n hn
    induction n with
    | zero =>
      rw [BitVec.of_length_zero (x := x.setWidth 0), BitVec.setWidth_zero]
      exact hf.map_zero.trans hg.map_zero.symm
    | succ n ih =>
      rw [setWidth_succ_eq_xor_twoPow, hf, hg, ih (by omega)]
      split
      · rw [h ⟨n, hn⟩]
      · rw [hf.map_zero, hg.map_zero]
  simpa using low 8 (Nat.le_refl 8)

/-- Two bilinear operations on bytes that agree on the powers of x are the same. -/
theorem bilinear_ext {m : Nat} {f g : Byte → Byte → BitVec m}
    (hfl : ∀ b, XorAdditive (f · b)) (hfr : ∀ a, XorAdditive (f a))
    (hgl : ∀ b, XorAdditive (g · b)) (hgr : ∀ a, XorAdditive (g a))
    (h : ∀ i j : Fin 8, f (BitVec.twoPow 8 i) (BitVec.twoPow 8 j) =
      g (BitVec.twoPow 8 i) (BitVec.twoPow 8 j)) (a b : Byte) : f a b = g a b :=
  (hfr a).ext (hgr a) (fun j => (hfl _).ext (hgl _) (fun i => h i j) a) b

/-! Bilinearity of the loop and of the product of polynomials. -/

theorem xor_xor_xor_comm {n : Nat} (p q a b : BitVec n) :
    (p ^^^ q) ^^^ (a ^^^ b) = (p ^^^ a) ^^^ (q ^^^ b) := by
  ac_rfl

/-- Under one bit, adding two terms to a sum is adding one to each summand. -/
theorem ite_xor_xor_term {n : Nat} (c : Bool) (p q a b : BitVec n) :
    (if c then (p ^^^ q) ^^^ (a ^^^ b) else p ^^^ q) =
      (if c then p ^^^ a else p) ^^^ (if c then q ^^^ b else q) := by
  cases c with
  | false => rfl
  | true => exact xor_xor_xor_comm p q a b

/-- One term added under the sum of two bits is the term added to each summand under its own bit;
under both bits it cancels. -/
theorem ite_xor_xor_bit {n : Nat} (c d : Bool) (p q a : BitVec n) :
    (if c ^^ d then (p ^^^ q) ^^^ a else p ^^^ q) =
      (if c then p ^^^ a else p) ^^^ (if d then q ^^^ a else q) := by
  cases c <;> cases d
  · rfl
  · exact BitVec.xor_assoc p q a
  · change (p ^^^ q) ^^^ a = (p ^^^ a) ^^^ q
    ac_rfl
  · change p ^^^ q = (p ^^^ a) ^^^ (q ^^^ a)
    rw [← xor_xor_xor_comm, BitVec.xor_self, BitVec.xor_zero]

theorem mulLoop_xor_left (n : Nat) (a c b p q : Byte) :
    mulLoop n (a ^^^ c) b (p ^^^ q) = mulLoop n a b p ^^^ mulLoop n c b q := by
  induction n generalizing a c b p q with
  | zero => rfl
  | succ n ih => simp only [mulLoop_succ, xtime_xor, ite_xor_xor_term, ih]

theorem mulLoop_xor_right (n : Nat) (a b c p q : Byte) :
    mulLoop n a (b ^^^ c) (p ^^^ q) = mulLoop n a b p ^^^ mulLoop n a c q := by
  induction n generalizing a b c p q with
  | zero => rfl
  | succ n ih =>
    simp only [mulLoop_succ, BitVec.getLsbD_xor, BitVec.ushiftRight_xor_distrib,
      ite_xor_xor_bit, ih]

/-- `mul` distributes over XOR on the left. -/
theorem mul_xor_left (b : Byte) : XorAdditive (mul · b) := fun a c =>
  mulLoop_xor_left 8 a c b 0 0

/-- `mul` distributes over XOR on the right (R105). -/
theorem mul_xor_right (a : Byte) : XorAdditive (mul a) := fun b c =>
  mulLoop_xor_right 8 a b c 0 0

/-- Three loops over the same list whose bodies take XOR to XOR. -/
theorem foldl_xor {ι : Type} {n : Nat} {f g h : BitVec n → ι → BitVec n}
    (hstep : ∀ p q k, h (p ^^^ q) k = f p k ^^^ g q k) (l : List ι) (p q : BitVec n) :
    l.foldl h (p ^^^ q) = l.foldl f p ^^^ l.foldl g q := by
  induction l generalizing p q with
  | nil => rfl
  | cons k l ih => rw [List.foldl_cons, hstep, ih, List.foldl_cons, List.foldl_cons]

theorem polyMul_xor_left (b : Byte) : XorAdditive (polyMul · b) := fun a c =>
  foldl_xor (fun p q k => by
    rw [BitVec.setWidth_xor, BitVec.shiftLeft_xor_distrib, ite_xor_xor_term]) (List.range 8) 0 0

theorem polyMul_xor_right (a : Byte) : XorAdditive (polyMul a) := fun b c =>
  foldl_xor (fun p q k => by rw [BitVec.getLsbD_xor, ite_xor_xor_bit]) (List.range 8) 0 0

theorem polyMod_xor : XorAdditive polyMod := fun p q =>
  foldl_xor (fun p q k => by rw [BitVec.getLsbD_xor, ite_xor_xor_bit]) (List.range 7) p q

theorem mulPoly_xor_left (b : Byte) : XorAdditive (mulPoly · b) :=
  (xorAdditive_setWidth 16 8).comp (polyMod_xor.comp (polyMul_xor_left b))

theorem mulPoly_xor_right (a : Byte) : XorAdditive (mulPoly a) :=
  (xorAdditive_setWidth 16 8).comp (polyMod_xor.comp (polyMul_xor_right a))

/-- Settles O10: the loop and the polynomial product are bilinear and agree on the 64 products of
powers of x. -/
theorem mulIsThePolynomialProduct : Obligations.MulIsThePolynomialProduct :=
  bilinear_ext mul_xor_left mul_xor_right mulPoly_xor_left mulPoly_xor_right (by decide +kernel)

/-! The laws of R105. -/

protected theorem mul_comm (a b : Byte) : mul a b = mul b a :=
  bilinear_ext (f := mul) (g := fun a b => mul b a) mul_xor_left mul_xor_right
    mul_xor_right mul_xor_left (by decide +kernel) a b

/-- Both groupings are linear in each of the three factors and agree on the powers of x. -/
protected theorem mul_assoc (a b c : Byte) : mul (mul a b) c = mul a (mul b c) := by
  have basis : ∀ i j k : Fin 8,
      mul (mul (BitVec.twoPow 8 i) (BitVec.twoPow 8 j)) (BitVec.twoPow 8 k) =
        mul (BitVec.twoPow 8 i) (mul (BitVec.twoPow 8 j) (BitVec.twoPow 8 k)) := by
    decide +kernel
  refine (mul_xor_right (mul a b)).ext ((mul_xor_right a).comp (mul_xor_right b)) (fun k => ?_) c
  exact bilinear_ext (f := fun a b => mul (mul a b) (BitVec.twoPow 8 k))
    (g := fun a b => mul a (mul b (BitVec.twoPow 8 k)))
    (fun b => (mul_xor_left _).comp (mul_xor_left b))
    (fun a => (mul_xor_left _).comp (mul_xor_right a))
    (fun b => mul_xor_left _)
    (fun a => (mul_xor_right a).comp (mul_xor_left _))
    (fun i j => basis i j k) a b

@[simp] protected theorem mul_zero (x : Byte) : mul x 0 = 0 := (mul_xor_right x).map_zero

@[simp] protected theorem mul_one (x : Byte) : mul x 1 = x := by
  simp [mul, mulLoop_succ]

@[simp] protected theorem one_mul (x : Byte) : mul 1 x = x := by
  rw [Machine.mul_comm, Machine.mul_one]

/-- Multiplying by the polynomial x is the doubling of R104. -/
theorem two_mul_eq_xtime (x : Byte) : mul 2 x = xtime x := by
  rw [Machine.mul_comm]
  simp [mul, mulLoop_succ]

/-! Inverses: an entry of the forward box is the affine image of an inverse (R106), so undoing the
affine map gives the inverse. -/

/-- The inverse of a non-zero byte, from the forward box by the inverse of the affine map of
R106. -/
def fieldInv (a : Byte) : Byte :=
  (sbox a).rotateLeft 1 ^^^ (sbox a).rotateLeft 3 ^^^ (sbox a).rotateLeft 6 ^^^ 0x05

theorem mul_fieldInv {a : Byte} (ha : a ≠ 0) : mul a (fieldInv a) = 1 := by
  have h : ∀ n : Fin 256, (⟨n⟩ : Byte) ≠ 0 → mul ⟨n⟩ (fieldInv ⟨n⟩) = 1 := by decide +kernel
  exact h a.toFin ha

/-- A byte has at most one inverse. -/
theorem eq_of_mul_eq_one {a b c : Byte} (hb : mul a b = 1) (hc : mul a c = 1) : c = b :=
  calc c = mul c (mul a b) := by rw [hb, Machine.mul_one]
    _ = mul (mul a c) b := by rw [← Machine.mul_assoc, Machine.mul_comm c a]
    _ = b := by rw [hc, Machine.one_mul]

/-- The constants of the column transforms by doubling and adding: 3 = 2 + 1, 4 = 2 · 2, 8 = 2 · 4,
9 = 8 + 1, 11 = 8 + 2 + 1, 13 = 8 + 4 + 1, 14 = 8 + 4 + 2 (R105). -/
theorem mul_columnConstants (v : Byte) :
    mul 3 v = mul 2 v ^^^ v ∧ mul 4 v = mul 2 (mul 2 v) ∧ mul 8 v = mul 2 (mul 4 v) ∧
    mul 9 v = mul 8 v ^^^ v ∧ mul 11 v = mul 8 v ^^^ mul 2 v ^^^ v ∧
    mul 13 v = mul 8 v ^^^ mul 4 v ^^^ v ∧ mul 14 v = mul 8 v ^^^ mul 4 v ^^^ mul 2 v := by
  have add (a b : Byte) : mul (a ^^^ b) v = mul a v ^^^ mul b v := mul_xor_left v a b
  have double (a : Byte) : mul (mul 2 a) v = mul 2 (mul a v) := Machine.mul_assoc 2 a v
  have addOne (a : Byte) : mul (a ^^^ 1) v = mul a v ^^^ v := by rw [add, Machine.one_mul]
  refine ⟨addOne 2, double 2, double 4, addOne 8, ?eleven, ?thirteen, ?fourteen⟩
  case eleven => rw [show (11 : Byte) = 8 ^^^ 2 ^^^ 1 from rfl, addOne, add]
  case thirteen => rw [show (13 : Byte) = 8 ^^^ 4 ^^^ 1 from rfl, addOne, add]
  case fourteen => rw [show (14 : Byte) = 8 ^^^ 4 ^^^ 2 from rfl, add, add]

/-- Settles O11: bilinearity with a check on the powers of x, and the inverse read off
the forward box. -/
theorem fieldMultiplicationLaws : Obligations.FieldMultiplicationLaws := by
  refine ⟨fun x => ⟨Machine.mul_one x, Machine.mul_zero x⟩, Machine.mul_comm, Machine.mul_assoc,
    mul_xor_right, ?inverse, ?constants⟩
  case inverse =>
    intro a ha
    exact ⟨fieldInv a, mul_fieldInv ha, fun c => eq_of_mul_eq_one (mul_fieldInv ha)⟩
  case constants =>
    intro v
    have twice : mul 2 v = ((v <<< 1) &&& 0xFF) ^^^ (if v.getLsbD 7 then 0x1B else 0) := by
      rw [two_mul_eq_xtime, xtime, show (0xFF : Byte) = BitVec.allOnes 8 from rfl,
        BitVec.and_allOnes]
    exact ⟨twice, mul_columnConstants v⟩

end Sys2Proof.Machine
end

section
/-! SUPPORT. The statements about the table `InvBox` and its build (40_codec_gf_sbox.md R108,
R109). -/

namespace Sys2Proof.Machine

/-- Every byte is an entry of the forward box, so a table that undoes the box is the built one
(R108). -/
theorem eq_builtInvBox_of_read_sbox {t : InvTable} (h : ∀ x, readInvBox t (sbox x) = x) :
    t = builtInvBox :=
  invTable_ext fun a => by
    calc readInvBox t a = readInvBox t (sbox (readInvBox builtInvBox a)) := by
          rw [sbox_readInvBox_builtInvBox]
      _ = readInvBox builtInvBox a := h _

/-- Settles O9: the two tables undo each other entry by entry, and the forward box is onto. -/
theorem builtBoxIsTheUniqueInverse : Obligations.BuiltBoxIsTheUniqueInverse :=
  ⟨readInvBox_builtInvBox_sbox, sbox_readInvBox_builtInvBox,
    fun _ h => eq_builtInvBox_of_read_sbox h⟩

theorem exec_ibld (s : State) : exec .ibld s = .next { s with invBox := builtInvBox } := by
  rw [← buildInvBox_eq_builtInvBox s.invBox]
  rfl

/-- Settles O27: the loop leaves the built table, whatever the table held, so also the second time
and in the reset sequence. -/
theorem ibldBuildsTheInverseTable : Obligations.IbldBuildsTheInverseTable :=
  ⟨rfl, rfl,
    fun s => ⟨builtInvBox, exec_ibld s, readInvBox_builtInvBox_sbox, exec_ibld _⟩,
    fun _ => exec_ibld_eq_resetEvent_invBox⟩

end Sys2Proof.Machine
end

section
/-! SUPPORT. The statements about the codec (40_codec_gf_sbox.md R100 to R102). -/

namespace Sys2Proof.Machine

theorem exec_lds (s : State) : exec .lds s = .next { s with s := bytesToState s.dreg } := rfl

theorem exec_sts (s : State) : exec .sts s = .next { s with dout := stateToBytes s.s } := rfl

/-- Byte 4i + j of the Block of four words is byte j of word i (R101). -/
theorem blockByte_stateToBytes (s : StateWords) (i j : Fin 4) :
    blockByte (stateToBytes s) ⟨4 * i.val + j.val, by omega⟩ = byte s[i.val] j := by
  rw [← byte_blockWord, blockWord_stateToBytes]

/-- Settles O16: word i of the loaded state is word i of the Block, which is a slice, a pack of four
bytes, and known lane by lane. -/
theorem ldsLoadsDreg : Obligations.LdsLoadsDreg := by
  refine ⟨rfl, fun s => ⟨bytesToState s.dreg, exec_lds s, fun i => ?word, fun i j => ?lane⟩⟩
  case word =>
    rw [getElem_bytesToState]
    exact ⟨blockWord_eq_slice s.dreg i, rfl⟩
  case lane =>
    rw [getElem_bytesToState]
    exact byte_blockWord s.dreg i j

/-- Settles O17: the Block stored has the four words as its slices, so their bytes in order. -/
theorem stsStoresDout : Obligations.StsStoresDout := by
  refine ⟨rfl, rfl, rfl, fun s => ⟨stateToBytes s.s, exec_sts s, ?bytes, fun i => ?word⟩⟩
  case bytes => exact blockByte_stateToBytes s.s
  case word => rw [← blockWord_eq_slice, blockWord_stateToBytes]

/-- Settles O18: the two conversions undo each other, and each uop writes what its conversion
gives. -/
theorem codecRoundTrip : Obligations.CodecRoundTrip := by
  refine ⟨fun s t u hload hstore => ?load_store, fun s t u hstore hload => ?store_load⟩
  case load_store =>
    rw [exec_lds] at hload
    cases hload
    rw [exec_sts] at hstore
    cases hstore
    exact stateToBytes_bytesToState s.dreg
  case store_load =>
    rw [exec_sts] at hstore
    cases hstore
    rw [exec_lds] at hload
    cases hload
    exact bytesToState_stateToBytes s.s

end Sys2Proof.Machine
end

section
/-! SUPPORT. The round transforms on state words (41_round_transforms.md R138): which of them undo
each other, and that a substitution commutes with a shift. -/

namespace Sys2Proof.Machine

/-! The shifts move whole bytes, so a composition of shifts is known by where each lane comes from
(R132, R133). -/

theorem invShiftRows_shiftRows (s : StateWords) : invShiftRows (shiftRows s) = s :=
  stateWords_ext fun i j => by
    have from_i : ((i.val + (4 - j.val) % 4) % 4 + j.val) % 4 = i.val := by omega
    rw [byte_invShiftRows, byte_shiftRows s ⟨_, Nat.mod_lt _ (by decide)⟩]
    simp only [from_i]

theorem shiftRows_invShiftRows (s : StateWords) : shiftRows (invShiftRows s) = s :=
  stateWords_ext fun i j => by
    have from_i : ((i.val + j.val) % 4 + (4 - j.val) % 4) % 4 = i.val := by omega
    rw [byte_shiftRows, byte_invShiftRows s ⟨_, Nat.mod_lt _ (by decide)⟩]
    simp only [from_i]

/-- Two shifts move row j by 2j words (R132). -/
theorem byte_shiftRows_twice (s : StateWords) (i j : Fin 4) :
    byte (shiftRows (shiftRows s))[i.val] j = byte s[(i.val + 2 * j.val) % 4] j := by
  have index : ((i.val + j.val) % 4 + j.val) % 4 = (i.val + 2 * j.val) % 4 := by omega
  rw [byte_shiftRows, byte_shiftRows s ⟨_, Nat.mod_lt _ (by decide)⟩]
  simp only [index]

/-- Four shifts move row j by 4j words, a multiple of the four there are. -/
theorem shiftRows_four_times (s : StateWords) :
    shiftRows (shiftRows (shiftRows (shiftRows s))) = s :=
  stateWords_ext fun i j => by
    have from_i : ((i.val + 2 * j.val) % 4 + 2 * j.val) % 4 = i.val := by omega
    rw [byte_shiftRows_twice, byte_shiftRows_twice s ⟨_, Nat.mod_lt _ (by decide)⟩]
    simp only [from_i]

theorem invShiftRows_four_times (s : StateWords) :
    invShiftRows (invShiftRows (invShiftRows (invShiftRows s))) = s := by
  conv_lhs => rw [← shiftRows_four_times s]
  simp only [invShiftRows_shiftRows]

theorem shiftRows_replicate (x : Word) :
    shiftRows (Vector.replicate 4 x) = Vector.replicate 4 x :=
  stateWords_ext fun i j => by
    rw [byte_shiftRows, Vector.getElem_replicate, Vector.getElem_replicate]

theorem invShiftRows_replicate (x : Word) :
    invShiftRows (Vector.replicate 4 x) = Vector.replicate 4 x :=
  calc invShiftRows (Vector.replicate 4 x)
      = invShiftRows (shiftRows (Vector.replicate 4 x)) := by rw [shiftRows_replicate]
    _ = Vector.replicate 4 x := invShiftRows_shiftRows _

/-! The substitutions act on each byte alone (R130, R131). -/

theorem byte_subBytes (s : StateWords) (i j : Fin 4) :
    byte (subBytes s)[i.val] j = sbox (byte s[i.val] j) := by
  rw [getElem_subBytes, byte_mapBytes]

theorem byte_invSubBytes (t : InvTable) (s : StateWords) (i j : Fin 4) :
    byte (invSubBytes t s)[i.val] j = readInvBox t (byte s[i.val] j) := by
  rw [getElem_invSubBytes, byte_mapBytes]

theorem invSubBytes_subBytes (s : StateWords) : invSubBytes builtInvBox (subBytes s) = s :=
  stateWords_ext fun i j => by
    rw [byte_invSubBytes, byte_subBytes, readInvBox_builtInvBox_sbox]

theorem subBytes_invSubBytes (s : StateWords) : subBytes (invSubBytes builtInvBox s) = s :=
  stateWords_ext fun i j => by
    rw [byte_subBytes, byte_invSubBytes, sbox_readInvBox_builtInvBox]

theorem shiftRows_subBytes (s : StateWords) : shiftRows (subBytes s) = subBytes (shiftRows s) :=
  stateWords_ext fun i j => by
    rw [byte_shiftRows, byte_subBytes, byte_shiftRows, getElem_subBytes, byte_mapBytes]

theorem invShiftRows_invSubBytes (t : InvTable) (s : StateWords) :
    invShiftRows (invSubBytes t s) = invSubBytes t (invShiftRows s) :=
  stateWords_ext fun i j => by
    rw [byte_invShiftRows, byte_invSubBytes, byte_invShiftRows, getElem_invSubBytes, byte_mapBytes]

/-! Adding a round key (R136). -/

/-- Only round key n matters for `ARK n` (R137). -/
theorem addRoundKey_congr {w w' : Schedule} {n : Fin 11}
    (h : ∀ i : Fin 4, w[4 * n.val + i.val]? = w'[4 * n.val + i.val]?) (s : StateWords) :
    addRoundKey w n s = addRoundKey w' n s := by
  ext1 i hi
  have word : w[4 * n.val + i] = w'[4 * n.val + i] := by
    have hn : 4 * n.val + i < 44 := by omega
    simpa only [Vector.getElem?_eq_getElem hn, Option.some.injEq] using h ⟨i, hi⟩
  rw [getElem_addRoundKey, getElem_addRoundKey, word]

theorem addRoundKey_addRoundKey (w : Schedule) (n : Fin 11) (s : StateWords) :
    addRoundKey w n (addRoundKey w n s) = s := by
  ext1 i hi
  rw [getElem_addRoundKey, getElem_addRoundKey, BitVec.xor_assoc, BitVec.xor_self, BitVec.xor_zero]

end Sys2Proof.Machine
end

section
/-! SUPPORT. The column transforms are inverse to each other (41_round_transforms.md R134, R135,
R138). A word is read as a polynomial over GF(2^8), byte k the coefficient of X^k; multiplying by a
fixed polynomial modulo X^4 + 1 is a circulant matrix. So `MIX` and `IMIX` are products with fixed
polynomials, and undo each other because these have product 1. -/

namespace Sys2Proof.Machine

/-- The product of two words as polynomials over GF(2^8), modulo X^4 + 1. -/
def columnMul (a x : Word) : Word :=
  pack
    (mul (byte a 0) (byte x 0) ^^^ mul (byte a 3) (byte x 1) ^^^
      mul (byte a 2) (byte x 2) ^^^ mul (byte a 1) (byte x 3))
    (mul (byte a 1) (byte x 0) ^^^ mul (byte a 0) (byte x 1) ^^^
      mul (byte a 3) (byte x 2) ^^^ mul (byte a 2) (byte x 3))
    (mul (byte a 2) (byte x 0) ^^^ mul (byte a 1) (byte x 1) ^^^
      mul (byte a 0) (byte x 2) ^^^ mul (byte a 3) (byte x 3))
    (mul (byte a 3) (byte x 0) ^^^ mul (byte a 2) (byte x 1) ^^^
      mul (byte a 1) (byte x 2) ^^^ mul (byte a 0) (byte x 3))

theorem mixColumn_eq_columnMul (x : Word) : mixColumn x = columnMul (pack 2 1 1 3) x := by
  simp only [mixColumn, columnMul, byte_pack_zero, byte_pack_one, byte_pack_two, byte_pack_three,
    Machine.one_mul]

theorem invMixColumn_eq_columnMul (x : Word) : invMixColumn x = columnMul (pack 14 9 13 11) x := by
  simp only [invMixColumn, columnMul, byte_pack_zero, byte_pack_one, byte_pack_two, byte_pack_three]

/-- Both groupings have the same sixteen terms in each lane. -/
theorem columnMul_assoc (a b x : Word) :
    columnMul a (columnMul b x) = columnMul (columnMul a b) x := by
  have left (p q r : Byte) : mul (p ^^^ q) r = mul p r ^^^ mul q r := mul_xor_left r p q
  have right (p q r : Byte) : mul p (q ^^^ r) = mul p q ^^^ mul p r := mul_xor_right p q r
  simp only [columnMul, byte_pack_zero, byte_pack_one, byte_pack_two, byte_pack_three, left, right,
    Machine.mul_assoc, pack_inj]
  refine ⟨?_, ?_, ?_, ?_⟩ <;> ac_rfl

theorem one_columnMul (x : Word) : columnMul 1 x = x := by
  have zero_mul (b : Byte) : mul 0#8 b = 0#8 :=
    (Machine.mul_comm 0 b).trans (Machine.mul_zero b)
  have one : (1 : Word) = pack 1 0#8 0#8 0#8 := by decide
  simp only [one, columnMul, byte_pack_zero, byte_pack_one, byte_pack_two, byte_pack_three,
    Machine.one_mul, zero_mul, BitVec.xor_zero, BitVec.zero_xor, pack_byte]

/-- Multiplying by polynomials with product 1, one after the other, changes nothing. -/
theorem columnMul_cancel {a b : Word} (h : columnMul a b = 1) (x : Word) :
    columnMul a (columnMul b x) = x := by
  rw [columnMul_assoc, h, one_columnMul]

theorem invMixColumn_mixColumn (x : Word) : invMixColumn (mixColumn x) = x := by
  rw [mixColumn_eq_columnMul, invMixColumn_eq_columnMul]
  exact columnMul_cancel (by decide) x

theorem mixColumn_invMixColumn (x : Word) : mixColumn (invMixColumn x) = x := by
  rw [mixColumn_eq_columnMul, invMixColumn_eq_columnMul]
  exact columnMul_cancel (by decide) x

theorem invMixColumns_mixColumns (s : StateWords) : invMixColumns (mixColumns s) = s := by
  ext1 i hi
  rw [getElem_invMixColumns, getElem_mixColumns, invMixColumn_mixColumn]

theorem mixColumns_invMixColumns (s : StateWords) : mixColumns (invMixColumns s) = s := by
  ext1 i hi
  rw [getElem_mixColumns, getElem_invMixColumns, mixColumn_invMixColumn]

end Sys2Proof.Machine
end

section
/-! SUPPORT. The statements about the round transforms (41_round_transforms.md R130 to R133, R136 to
R138). -/

namespace Sys2Proof.Machine

variable {s s' t : State} {u u' : Instr} {v v' : StateWords} {n : BitVec 4}

/-! What each of the seven uops does to the state, by the transform of its words (R137). -/

theorem exec_sub (s : State) : exec .sub s = .next (s.withWords (subBytes s.s)) := rfl

theorem exec_isub (s : State) : exec .isub s = .next (s.withWords (invSubBytes s.invBox s.s)) := rfl

theorem exec_shr (s : State) : exec .shr s = .next (s.withWords (shiftRows s.s)) := rfl

theorem exec_ishr (s : State) : exec .ishr s = .next (s.withWords (invShiftRows s.s)) := rfl

theorem exec_mix (s : State) : exec .mix s = .next (s.withWords (mixColumns s.s)) := rfl

theorem exec_imix (s : State) : exec .imix s = .next (s.withWords (invMixColumns s.s)) := rfl

theorem exec_ark (hn : n.toNat ≤ 10) (s : State) :
    exec (.ark n) s = .next (s.withWords (addRoundKey s.w ⟨n.toNat, by omega⟩ s.s)) :=
  dif_pos hn

/-- `ARK n` has no next state for the reserved n (R81). -/
theorem le_ten_of_exec_ark (h : exec (.ark n) s = .next t) : n.toNat ≤ 10 := by
  simp only [exec, execArk] at h
  split at h
  · assumption
  · cases h

@[simp] theorem State.withWords_withWords (s : State) (v v' : StateWords) :
    (s.withWords v).withWords v' = s.withWords v' := rfl

@[simp] theorem State.withWords_self (s : State) : s.withWords s.s = s := rfl

/-! The transforms one by one. -/

/-- Settles O19: lane by lane. -/
theorem subReplacesEveryByte : Obligations.SubReplacesEveryByte :=
  ⟨rfl, fun s => ⟨subBytes s.s, exec_sub s, byte_subBytes s.s⟩⟩

/-- Settles O20: lane by lane, for any contents of the table. -/
theorem isubReplacesEveryByteByInvBox : Obligations.IsubReplacesEveryByteByInvBox :=
  ⟨rfl, fun s => ⟨invSubBytes s.invBox s.s, exec_isub s, byte_invSubBytes s.invBox s.s⟩⟩

/-- Settles O21: lane by lane; row j returns to its place after four shifts by j words. -/
theorem shrShiftsRows : Obligations.ShrShiftsRows := by
  refine ⟨rfl, fun s => ⟨shiftRows s.s, exec_shr s, byte_shiftRows s.s, fun x hx => ?equal_words,
    shiftRows_four_times s.s⟩⟩
  case equal_words => rw [hx, shiftRows_replicate]

/-- Settles O22: lane by lane; the corner cases follow from those of `SHR`, which `ISHR` undoes. -/
theorem ishrShiftsRowsBack : Obligations.IshrShiftsRowsBack := by
  refine ⟨rfl, fun s => ⟨invShiftRows s.s, exec_ishr s, byte_invShiftRows s.s, ?undone,
    fun x hx => ?equal_words, invShiftRows_four_times s.s⟩⟩
  case undone => exact (exec_shr _).trans (by rw [shiftRows_invShiftRows]; rfl)
  case equal_words => rw [hx, invShiftRows_replicate]

/-- Settles O25: the words of R76 decode to `ARK n`, which adds round key n word by word. -/
theorem arkAddsRoundKey : Obligations.ArkAddsRoundKey := by
  obtain ⟨-, decode_ark, -⟩ := uopKindCodes
  exact fun n hn => ⟨decode_ark n hn, fun s => ⟨_, exec_ark hn s, fun i =>
    getElem_addRoundKey s.w ⟨n.toNat, by omega⟩ s.s i.val i.isLt⟩⟩

/-! Dependence on the listed operands only (R137). -/

/-- Two states in which a uop writes the same words. -/
theorem writes_same_words (h : exec u s = .next (s.withWords v))
    (h' : exec u s' = .next (s'.withWords v')) (hv : v' = v) :
    ∃ v : StateWords, exec u s = .next { s with s := v } ∧ exec u s' = .next { s' with s := v } :=
  ⟨v, h, hv ▸ h'⟩

/-- Settles O28: each transform is a function of the old words and of its own operand. -/
theorem roundTransformsArePure : Obligations.RoundTransformsArePure := by
  intro u hu s s' hs hbox hkey
  cases u with
  | sub => exact writes_same_words (exec_sub s) (exec_sub s') (by rw [hs])
  | isub => exact writes_same_words (exec_isub s) (exec_isub s') (by rw [hs, hbox rfl])
  | shr => exact writes_same_words (exec_shr s) (exec_shr s') (by rw [hs])
  | ishr => exact writes_same_words (exec_ishr s) (exec_ishr s') (by rw [hs])
  | mix => exact writes_same_words (exec_mix s) (exec_mix s') (by rw [hs])
  | imix => exact writes_same_words (exec_imix s) (exec_imix s') (by rw [hs])
  | ark n =>
    have hn : n.toNat ≤ 10 := by
      clear hs hbox hkey
      decide +revert
    refine writes_same_words (exec_ark hn s) (exec_ark hn s') ?_
    rw [← hs, addRoundKey_congr (n := ⟨n.toNat, by omega⟩) (hkey n rfl)]
  | nop | enc | dec | init | kexp | lds | sts | ibld => simp at hu

/-! The inverse pairs (R138). -/

/-- A uop that writes the old words again undoes the one before it. -/
theorem exec_undoes (h : exec u s = .next (s.withWords v))
    (h' : exec u' (s.withWords v) = .next (s.withWords v')) (hv : v' = s.s)
    (hst : exec u s = .next t) : exec u' t = .next s := by
  cases h.symm.trans hst
  rw [h', hv, State.withWords_self]

theorem exec_ark_undoes (h : exec (.ark n) s = .next t) : exec (.ark n) t = .next s := by
  have hn := le_ten_of_exec_ark h
  exact exec_undoes (exec_ark hn s) (exec_ark hn _) (addRoundKey_addRoundKey s.w _ s.s) h

/-- Settles O29: the transforms of the words undo each other, or commute, and the uops write
nothing else. -/
theorem inversePairs : Obligations.InversePairs := by
  refine ⟨?pairs, fun n s t => exec_ark_undoes, fun s t hb => ⟨fun h => ?sub, fun h => ?isub⟩,
    fun s t t' hsub hshr => ?commute, fun s t t' hisub hishr => ?commuteInverse⟩
  case pairs =>
    intro p hp s t h
    simp only [List.mem_cons, List.not_mem_nil, or_false] at hp
    obtain rfl | rfl | rfl | rfl := hp
    · exact exec_undoes (exec_shr s) (exec_ishr _) (invShiftRows_shiftRows s.s) h
    · exact exec_undoes (exec_ishr s) (exec_shr _) (shiftRows_invShiftRows s.s) h
    · exact exec_undoes (exec_mix s) (exec_imix _) (invMixColumns_mixColumns s.s) h
    · exact exec_undoes (exec_imix s) (exec_mix _) (mixColumns_invMixColumns s.s) h
  case sub =>
    refine exec_undoes (exec_sub s) (exec_isub _) ?_ h
    rw [State.withWords_invBox, hb]
    exact invSubBytes_subBytes s.s
  case isub =>
    refine exec_undoes (exec_isub s) (exec_sub _) ?_ h
    rw [hb]
    exact subBytes_invSubBytes s.s
  case commute =>
    cases (exec_sub s).symm.trans hsub
    cases (exec_shr s).symm.trans hshr
    simp only [exec_shr, exec_sub, State.withWords_s, State.withWords_withWords, shiftRows_subBytes]
  case commuteInverse =>
    cases (exec_isub s).symm.trans hisub
    cases (exec_ishr s).symm.trans hishr
    simp only [exec_ishr, exec_isub, State.withWords_s, State.withWords_invBox,
      State.withWords_withWords, invShiftRows_invSubBytes]

end Sys2Proof.Machine
end

section
/-! SUPPORT. The key schedule (42_key_schedule.md R150 to R154): the helpers lane by lane, the round
constants, and the words `KEXP` writes. -/

namespace Sys2Proof.Machine

/-! `RotWord` and `SubWord` (R150, R151). -/

/-- The masks of R150 clear only bits that the shifts drop or have cleared already. -/
theorem rotWord_eq_rotateRight (x : Word) : rotWord x = x.rotateRight 8 := by
  apply BitVec.eq_of_getLsbD_eq
  intro i hi
  interval_cases i <;> simp [rotWord]

/-- `RotWord` moves lane j + 1, counted round the word, to lane j (R150). -/
theorem byte_rotWord (x : Word) (j : Fin 4) : byte (rotWord x) j = byte x (j + 1) := by
  rw [rotWord_eq_rotateRight]
  apply BitVec.eq_of_getLsbD_eq
  intro i hi
  simp only [byte, BitVec.getLsbD_extractLsb', BitVec.getLsbD_rotateRight, hi]
  fin_cases j <;> grind

theorem rotWord_pack (b0 b1 b2 b3 : Byte) : rotWord (pack b0 b1 b2 b3) = pack b1 b2 b3 b0 :=
  word_ext fun j => by
    rw [byte_rotWord]
    fin_cases j <;> simp

/-- Settles O12: `RotWord` is known bit by bit and so lane by lane; `SubWord` is the forward box
lane by lane. -/
theorem rotWordAndSubWord : Obligations.RotWordAndSubWord :=
  ⟨fun _ => rfl, rotWord_eq_rotateRight, rotWord_pack, byte_mapBytes sbox, fun _ => rfl⟩

/-! The round constants (R152). -/

/-- The byte 0x80 doubles to 0x1B by the reduction of R104, so the rule has no exception (R152). -/
theorem rcon_succ (k : Fin 9) : rcon k.succ = mul 2 (rcon k.castSucc) := by
  decide +revert

/-- A byte extended to a word stands in lane 0 (R11). -/
theorem setWidth_eq_pack (b : Byte) : b.setWidth 32 = pack b 0 0 0 := by
  simp [pack]

theorem byte_setWidth (b : Byte) (j : Fin 4) :
    byte (b.setWidth 32) j = if j = 0 then b else 0 := by
  rw [setWidth_eq_pack]
  fin_cases j <;> simp

/-- Adding an extended byte to a word adds it in lane 0 (R152). -/
theorem byte_xor_setWidth (x : Word) (b : Byte) (j : Fin 4) :
    byte (x ^^^ b.setWidth 32) j = if j = 0 then byte x 0 ^^^ b else byte x j := by
  rw [byte_xor, byte_setWidth]
  split
  next h => rw [h]
  · exact BitVec.xor_zero

/-- Settles O13: the ten values and nine doublings are checked, and an extended byte has its bits in
lane 0 only. -/
theorem roundConstants : Obligations.RoundConstants := by
  refine ⟨by decide, fun k h => rcon_succ ⟨k, by omega⟩, fun x k =>
    ⟨?lane_zero, fun j hj => ?others⟩⟩
  case lane_zero => rw [byte_xor_setWidth, if_pos rfl]
  case others => rw [byte_xor_setWidth, if_neg hj]

/-! `KEXP` (R153, R154). -/

theorem exec_kexp (s : State) : exec .kexp s = .next { s with w := expandKey s.kreg } := rfl

/-- The recurrence of R153 on the words of the finished schedule, for the loop's own index i. -/
theorem getElem_expandKey_recurrence (key : Block) (i : Nat) (h : 4 ≤ i ∧ i < 44) :
    (expandKey key)[i] = (expandKey key)[i - 4] ^^^
      (if i % 4 = 0 then
        subWord (rotWord (expandKey key)[i - 1]) ^^^ (rcon ⟨i / 4 - 1, by omega⟩).setWidth 32
      else (expandKey key)[i - 1]) := by
  obtain ⟨j, rfl⟩ := Nat.exists_eq_add_of_le' h.1
  exact getElem_expandKey_next key ⟨j, by omega⟩

/-- Settles O14: the first four words are the slices of the key, and every later one satisfies the
recurrence, since the words it is computed from are final when the loop reads them. -/
theorem kexpExpandsTheKey : Obligations.KexpExpandsTheKey := by
  refine ⟨rfl, rfl, rfl, fun s => ⟨expandKey s.kreg, exec_kexp s, fun i => ?key,
    getElem_expandKey_recurrence s.kreg⟩⟩
  case key =>
    rw [getElem_expandKey_low s.kreg i.val i.isLt]
    exact ⟨blockWord_eq_slice s.kreg i, rfl⟩

/-- Settles O15: `KEXP` writes the expansion of `kreg`, whatever the rest of the state holds. -/
theorem keyExpansionIsDeterministic : Obligations.KeyExpansionIsDeterministic := by
  intro s s' hkey
  refine ⟨expandKey s.kreg, exec_kexp s, ?_⟩
  rw [hkey]
  exact exec_kexp s'

end Sys2Proof.Machine
end

section
/-! SUPPORT. What a command does when it meets the core: the fields of its word (30_encoding.md
R71), accept and drop (43_cipher_driver.md R170, R171, R174, R177), and the step as `exec` of the
instruction that was decoded, with the bookkeeping after a uop (R172, R173). -/

namespace Sys2Proof.Machine

variable {s t : State} {key din : Block}

/-! The fields of a command word (R71). -/

@[simp] theorem cmdCode_cmdWord (code : CmdBits) (key din : Block) :
    cmdCode (cmdWord code key din) = code :=
  BitVec.extractLsb'_append_eq_left

@[simp] theorem cmdKey_cmdWord (code : CmdBits) (key din : Block) :
    cmdKey (cmdWord code key din) = key :=
  (BitVec.extractLsb'_append_eq_of_add_le (by decide)).trans BitVec.extractLsb'_append_eq_left

@[simp] theorem cmdDin_cmdWord (code : CmdBits) (key din : Block) :
    cmdDin (cmdWord code key din) = din :=
  (BitVec.extractLsb'_append_eq_of_add_le (by decide)).trans BitVec.extractLsb'_append_eq_right

theorem decodeCommand_cmdWord (code : CmdBits) (key din : Block) :
    decodeCommand (cmdWord code key din) = commandOf code key din := by
  rw [decodeCommand, cmdCode_cmdWord, cmdKey_cmdWord, cmdDin_cmdWord]

/-! Accept and drop. -/

/-- The edge of an idle core without reset: accept, unless no command is presented (R170). -/
theorem step_idle_eq (hr : s.ports.rst = false) (hi : s.Idle) :
    step s = .next (if s.ports.cmd = 0 then s.nextEdge
      else s.nextEdge.accept s.ports.cmd s.ports.key s.ports.din) :=
  (step_of_idle hr hi).trans (exec_commandOf_idle _ _ _ hi)

theorem step_idle_of_no_command (hr : s.ports.rst = false) (hi : s.Idle) (hc : s.ports.cmd = 0) :
    step s = .next s.nextEdge := by
  rw [step_idle_eq hr hi, if_pos hc]

theorem step_idle_of_command (hr : s.ports.rst = false) (hi : s.Idle) (hc : s.ports.cmd ≠ 0) :
    step s = .next (s.nextEdge.accept s.ports.cmd s.ports.key s.ports.din) := by
  rw [step_idle_eq hr hi, if_neg hc]

/-- Settles O31: the word's fields are read back, and an idle core accepts no code 00. -/
theorem nopChangesNothing : Obligations.NopChangesNothing :=
  ⟨fun key din => congrArg Except.ok (decodeCommand_cmdWord 0 key din), fun _ _ _ => rfl,
    fun _ => step_idle_of_no_command⟩

/-- Settles O32: each of the three codes is accepted by an idle core. -/
theorem acceptLatchesTheCommand : Obligations.AcceptLatchesTheCommand := fun _ key din hi =>
  ⟨exec_commandOf_idle 1 key din hi, exec_commandOf_idle 2 key din hi,
    exec_commandOf_idle 3 key din hi⟩

/-- A busy core drops every command taken alone (R177; log 7). -/
theorem present_of_busy (hb : s.busy = true) (code : CmdBits) (key din : Block) :
    s.present code key din = .next s :=
  if_pos hb

/-- Settles O33: all three commands are presented, and a busy core drops what is presented. -/
theorem commandsAreDroppedWhileBusy : Obligations.CommandsAreDroppedWhileBusy :=
  fun _ key din hb =>
    ⟨present_of_busy hb 1 key din, present_of_busy hb 2 key din, present_of_busy hb 3 key din⟩

/-! The step. -/

/-- The step of a busy core: what it fetched has a next state, which the bookkeeping follows. -/
theorem step_of_exec {u : Instr} (hr : s.ports.rst = false) (hb : s.busy = true)
    (hf : s.fetch = .ok u) (hx : exec u s.nextEdge = .next t) : step s = .next t.bookkeep := by
  rw [step_of_fetch hr hb hf, hx]
  rfl

/-- Settles O34: the fetched word is a well-formed uop, so it has a next state; an idle core takes
the command its ports spell. -/
theorem stepRunsTheDecodedInstruction : Obligations.StepRunsTheDecodedInstruction := by
  refine ⟨fun s word u hr hb hw hd => ?busy, fun s i hr hi hd => ?idle⟩
  case busy =>
    have hf : s.fetch = .ok u := fetch_eq_ok.mpr ⟨word, hw, hd⟩
    obtain ⟨hu, hwf⟩ := fetch_ok_uop hf
    obtain ⟨t, ht⟩ := exec_uop_next hu hwf s.nextEdge
    exact ⟨t, ht, step_of_exec hr hb hf ht⟩
  case idle =>
    have hi' : commandOf s.ports.cmd s.ports.key s.ports.din = i :=
      (decodeCommand_cmdWord _ _ _).symm.trans (Except.ok.inj hd)
    rw [step_of_idle hr hi, hi']
    rfl

/-- The last index of each command (R173). -/
theorem lastIndex_eq {op : CmdBits} {last : Nat}
    (h : (op = 1 ∨ op = 2) ∧ last = 42 ∨ op = 3 ∧ last = 0) : lastIndex op = last := by
  obtain ⟨rfl | rfl, rfl⟩ | ⟨rfl, rfl⟩ := h <;> rfl

/-- Settles O35: a uop leaves `op` and `upc` alone, so the bookkeeping after it compares the index
the uop was fetched from. -/
theorem bookkeepingAfterAUop : Obligations.BookkeepingAfterAUop := by
  intro s t u last hr hb hf hx hlast
  obtain ⟨hu, -⟩ := fetch_ok_uop hf
  obtain ⟨hop, hupc, -⟩ := exec_uop_control hu hx
  have hop : t.op = s.op := hop
  have hupc : t.upc = s.upc := hupc
  rw [step_of_exec hr hb hf hx, bookkeep_eq, hop, hupc, lastIndex_eq hlast]
  exact ⟨fun h => by rw [if_pos h], fun h => by rw [if_neg h]⟩

end Sys2Proof.Machine
end

section
/-! SUPPORT. What the ports can do along a run: nothing while a command is in progress
(43_cipher_driver.md R177), and nothing without a command while the core is idle (R170). -/

namespace Sys2Proof.Machine

variable {s s' t : State}

/-! The samples to come (log 1). -/

/-- The first of these edges is one without reset. -/
theorem rst_of_noReset {n : Nat} (hn : 0 < n) (h : s.NoReset n) : s.ports.rst = false := by
  obtain ⟨m, rfl⟩ := Nat.exists_eq_add_of_lt hn
  rw [Nat.zero_add] at h
  exact (noReset_succ.mp h).1

theorem noReset_mono {m n : Nat} (hmn : m ≤ n) (h : s.NoReset n) : s.NoReset m :=
  fun p hp => h p (List.take_subset_take_left _ hmn hp)

/-- What the host keeps for n + m edges it keeps for the m edges after the first n. -/
theorem noReset_of_inputs_drop {n m : Nat} (ht : t.inputs = s.inputs.drop n)
    (h : s.NoReset (n + m)) : t.NoReset m := by
  intro p hp
  rw [ht, List.take_drop] at hp
  exact h p (List.mem_of_mem_drop hp)

theorem inputs_of_step (hr : s.ports.rst = false) (h : step s = .next t) :
    t.inputs = s.inputs.tail := by
  obtain ⟨-, -, -, -, -, -, -, -, -, hin⟩ := accessMatrix s t h hr
  exact hin

theorem noReset_of_step {n : Nat} (h : step s = .next t) (hn : s.NoReset (n + 1)) :
    t.NoReset n := by
  obtain ⟨hr, hn'⟩ := noReset_succ.mp hn
  unfold State.NoReset
  rwa [inputs_of_step hr h]

/-! A busy core (R177). -/

/-- The samples play no part in the bookkeeping. -/
theorem bookkeep_withInputs (s : State) (l : List Ports) :
    State.bookkeep { s with inputs := l } = { s.bookkeep with inputs := l } := by
  simp only [State.bookkeep_eq_update]

/-- Equal but for the samples: one state is the other with its own samples. -/
theorem eq_withInputs_of_sameButInputs (h : s.SameButInputs s') :
    s' = { s with inputs := s'.inputs } :=
  (congrArg (fun x : State => { x with inputs := s'.inputs }) h).symm

/-- A busy core without reset does the same whatever samples are to come. -/
theorem step_busy_withInputs (hr : s.ports.rst = false) (hb : s.busy = true)
    (h : step s = .next t) {l : List Ports}
    (hl : ({ s with inputs := l } : State).ports.rst = false) :
    step { s with inputs := l } = .next { t with inputs := l.tail } := by
  obtain ⟨hr', -⟩ | ⟨-, -, u, v, hf, hx, rfl⟩ | ⟨-, hb', -⟩ := step_next_cases h
  · exact absurd (hr.symm.trans hr') (by decide)
  · obtain ⟨hu, -⟩ := fetch_ok_uop hf
    have hx' := exec_uop_inputs hu l.tail hx
    rw [← bookkeep_withInputs]
    exact step_of_exec hl hb hf hx'
  · exact absurd (hb.symm.trans hb') (by decide)

/-- Settles O37: each step of the busy core is the same in both runs, and leaves the states equal
but for the samples to come. -/
theorem inputsAreNotLookedAtWhileBusy : Obligations.InputsAreNotLookedAtWhileBusy := by
  intro n
  induction n with
  | zero =>
    intro s s' t hss _ _ _ hrun
    cases hrun
    exact ⟨s', rfl, hss⟩
  | succ n ih =>
    intro s s' t hss hs hs' hbusy hrun
    obtain ⟨u, hstep, hrun'⟩ := step_of_run_succ hrun
    obtain ⟨hr, -⟩ := noReset_succ.mp hs
    obtain ⟨hr', -⟩ := noReset_succ.mp hs'
    have e := eq_withInputs_of_sameButInputs hss
    rw [e] at hr'
    have hstep' := step_busy_withInputs hr (hbusy 0 n.succ_pos s rfl) hstep hr'
    rw [← e] at hstep'
    have hbusy' : ∀ k < n, ∀ v, core.run k u = .next v → v.busy = true := fun k hk v hv =>
      hbusy (k + 1) (Nat.succ_lt_succ hk) v ((run_succ_of_next hstep k).trans hv)
    obtain ⟨t', ht', htt'⟩ := ih u { u with inputs := s'.inputs.tail } t rfl
      (noReset_of_step hstep hs) (noReset_of_step hstep' hs') hbusy' hrun'
    exact ⟨t', (run_succ_of_next hstep' n).trans ht', htt'⟩

/-! An idle core (R170). -/

theorem run_idle_of_noCommand {n : Nat} (hi : s.Idle) (hn : s.NoCommand n) :
    core.run n s = .next { s with inputs := s.inputs.drop n } := by
  induction n generalizing s with
  | zero => rfl
  | succ n ih =>
    obtain ⟨⟨hr, hc⟩, hn'⟩ := noCommand_succ.mp hn
    rw [run_succ_of_next (step_idle_of_no_command hr hi hc), ih (s := s.nextEdge) hi hn',
      State.nextEdge_inputs, List.drop_tail]
    rfl

/-- Settles O38: of the edges a core can have, only accept of an idle core writes `op` and the
latches or starts a command, but for reset. -/
theorem idleCoreHoldsItsState : Obligations.IdleCoreHoldsItsState := by
  refine ⟨fun n s => run_idle_of_noCommand, fun s t h => ⟨?accepted, fun hno => ?other⟩⟩
  case accepted =>
    rintro ⟨hr, hi, hc⟩
    cases h.symm.trans (step_idle_of_command hr hi hc)
    rfl
  case other =>
    obtain ⟨hr, rfl⟩ | ⟨hr, hb, u, v, hf, hx, rfl⟩ | ⟨hr, hi, rfl⟩ := step_next_cases h
    · exact ⟨fun _ => rfl, fun hr' => absurd (hr.symm.trans hr') (by decide)⟩
    · obtain ⟨hu, -⟩ := fetch_ok_uop hf
      obtain ⟨hop, -, -, -, hkreg, hdreg, -⟩ := exec_uop_control hu hx
      refine ⟨fun hi => absurd (hb.symm.trans hi) (by decide), fun _ => ?_⟩
      rw [State.bookkeep_op, State.bookkeep_kreg, State.bookkeep_dreg]
      exact ⟨hop, hkreg, hdreg⟩
    · have hc : s.ports.cmd = 0 := by
        by_contra hc
        exact hno ⟨hr, hi, hc⟩
      rw [if_pos hc]
      exact ⟨fun _ => hi, fun _ => ⟨rfl, rfl, rfl⟩⟩

end Sys2Proof.Machine
end

section
/-! SUPPORT. A command in progress (43_cipher_driver.md R172, R173, R179): each uop but the last
moves the core to the next index, the last one completes the command, and until then the outputs
and, but for `INIT`, the table stay as they are (R182). -/

namespace Sys2Proof.Machine

variable {s t u : State}

/-! Where a microprogram writes `dout` and where the table (R78 to R80). -/

theorem word_of_fetch {i : Instr} (h : s.fetch = .ok i) :
    ∃ word, (urom s.op)[s.upc.toNat]? = some word ∧ encode i = .uop word := by
  obtain ⟨word, hw, hd⟩ := fetch_eq_ok.mp h
  obtain ⟨-, he⟩ := decode_uop_eq_ok.mp hd
  exact ⟨word, hw, he⟩

/-- The word of `STS` stands at index 42 of the two long microprograms and nowhere else. -/
theorem index_of_sts_word {op : CmdBits} {k : Nat} (h : (urom op)[k]? = some 0x30) :
    (op = 1 ∨ op = 2) ∧ k = 42 := by
  have all : ∀ op : CmdBits, ∀ p ∈ (urom op).zipIdx, p.1 = 0x30 →
      (op = 1 ∨ op = 2) ∧ p.2 = 42 := by decide
  exact all op _ (List.mk_mem_zipIdx_iff_getElem?.mpr h) rfl

/-- `STS` is the last uop of `ENC` and of `DEC`, and no other (R101). -/
theorem index_of_fetch_sts (h : s.fetch = .ok .sts) : (s.op = 1 ∨ s.op = 2) ∧ s.upc = 42 := by
  obtain ⟨word, hw, he⟩ := word_of_fetch h
  cases he
  obtain ⟨hop, hk⟩ := index_of_sts_word hw
  exact ⟨hop, BitVec.eq_of_toNat_eq hk⟩

/-- The word of `IBLD` stands in the microprogram of `INIT` only. -/
theorem op_of_fetch_ibld (h : s.fetch = .ok .ibld) : s.op = 3 := by
  obtain ⟨word, hw, he⟩ := word_of_fetch h
  cases he
  have all : ∀ op : CmdBits, (0x80 : UopWord) ∈ urom op → op = 3 := by decide
  exact all s.op (List.mem_of_getElem? hw)

/-! One step. -/

/-- The elements that the step of a busy core moves on: the index and the samples to come. -/
def State.withSequencer (s : State) (upc : Upc) (l : List Ports) : State :=
  { s with upc := upc, inputs := l }

/-- A uop at the last index, which completes the command (R173). -/
theorem step_last_uop {i : Instr} (hr : s.ports.rst = false) (hb : s.busy = true)
    (hf : s.fetch = .ok i) (hx : exec i s = .next t) (hlast : s.upc.toNat = lastIndex s.op) :
    step s = .next { t with upc := 0, busy := false, done := true, inputs := s.inputs.tail } := by
  obtain ⟨hi, -⟩ := fetch_ok_uop hf
  obtain ⟨hop, hupc, -⟩ := exec_uop_control hi hx
  rw [← hop, ← hupc] at hlast
  rw [step_of_exec hr hb hf (exec_uop_inputs hi s.inputs.tail hx), bookkeep_eq, if_pos hlast]

/-- A uop at any other index, which leaves the core at the next one (R173). -/
theorem step_earlier_uop {i : Instr} (hr : s.ports.rst = false) (hb : s.busy = true)
    (hf : s.fetch = .ok i) (hx : exec i s = .next t) (hlast : s.upc.toNat ≠ lastIndex s.op) :
    step s = .next (t.withSequencer (s.upc + 1) s.inputs.tail) := by
  obtain ⟨hi, -⟩ := fetch_ok_uop hf
  obtain ⟨hop, hupc, -⟩ := exec_uop_control hi hx
  rw [← hop, ← hupc] at hlast
  rw [step_of_exec hr hb hf (exec_uop_inputs hi s.inputs.tail hx), bookkeep_eq, if_neg hlast,
    ← hupc]
  rfl

/-- Before the last index the counter does not wrap (R28). -/
theorem toNat_upc_succ (h : s.upc.toNat < lastIndex s.op) :
    (s.upc + 1).toNat = s.upc.toNat + 1 := by
  have hlast := lastIndex_le s.op
  bv_omega

/-- In progress, the core has a uop to perform, and it can be performed (R172). -/
theorem exec_of_inProgress (hp : s.InProgress) :
    ∃ i v, s.fetch = .ok i ∧ i.isCommand = false ∧ exec i s = .next v := by
  obtain ⟨i, hf⟩ := fetch_of_inProgress hp
  obtain ⟨hi, hwf⟩ := fetch_ok_uop hf
  obtain ⟨v, hx⟩ := exec_uop_next hi hwf s
  exact ⟨i, v, hf, hi, hx⟩

/-- The last uop completes the command (R173). -/
theorem step_completes (hr : s.ports.rst = false) (hb : s.busy = true) (hp : s.InProgress)
    (hlast : s.upc.toNat = lastIndex s.op) :
    ∃ t, step s = .next t ∧ t.busy = false ∧ t.done = true ∧ t.upc = 0 ∧ t.op = s.op := by
  obtain ⟨i, v, hf, hi, hx⟩ := exec_of_inProgress hp
  obtain ⟨hop, -⟩ := exec_uop_control hi hx
  exact ⟨_, step_last_uop hr hb hf hx hlast, rfl, rfl, rfl, hop⟩

/-- The core is k uops further in the command that `s` has in progress, and has not completed it. -/
structure Underway (s t : State) (k : Nat) : Prop where
  busy : t.busy = true
  inProgress : t.InProgress
  op : t.op = s.op
  upc : t.upc.toNat = s.upc.toNat + k
  inputs : t.inputs = s.inputs.drop k
  dout : t.dout = s.dout
  invBox : s.op ≠ 3 → t.invBox = s.invBox

theorem Underway.zero (hb : s.busy = true) (hp : s.InProgress) : Underway s s 0 :=
  ⟨hb, hp, rfl, rfl, rfl, rfl, fun _ => rfl⟩

theorem Underway.trans {k m : Nat} (h : Underway s t k) (h' : Underway t u m) :
    Underway s u (m + k) where
  busy := h'.busy
  inProgress := h'.inProgress
  op := h'.op.trans h.op
  upc := by rw [h'.upc, h.upc]; omega
  inputs := by rw [h'.inputs, h.inputs, List.drop_drop, Nat.add_comm]
  dout := h'.dout.trans h.dout
  invBox hop := (h'.invBox (h.op ▸ hop)).trans (h.invBox hop)

/-- A uop before the last one moves the core to the next index; it is not `STS` (R173, R101). -/
theorem step_underway (hr : s.ports.rst = false) (hb : s.busy = true) (hp : s.InProgress)
    (hlt : s.upc.toNat < lastIndex s.op) : ∃ t, step s = .next t ∧ Underway s t 1 := by
  obtain ⟨i, v, hf, hi, hx⟩ := exec_of_inProgress hp
  obtain ⟨hop, -, hbusy, hdone, -⟩ := exec_uop_control hi hx
  obtain ⟨hop0, -, hdone0⟩ := hp
  have hnext := toNat_upc_succ hlt
  exact ⟨_, step_earlier_uop hr hb hf hx hlt.ne, {
    busy := hbusy.trans hb
    inProgress := by
      refine ⟨hop.trans_ne hop0, ?_, hdone.trans hdone0⟩
      change (s.upc + 1).toNat ≤ lastIndex v.op
      rw [hop, hnext]
      exact hlt
    op := hop
    upc := hnext
    inputs := List.drop_one.symm
    dout := by
      by_contra hd
      obtain rfl := exec_uop_writes_dout hi hx hd
      obtain ⟨-, h42⟩ := index_of_fetch_sts hf
      rw [h42] at hlt
      exact absurd hlt (lastIndex_le s.op).not_gt
    invBox := by
      intro hop3
      by_contra hd
      obtain rfl := exec_uop_writes_invBox hi hx hd
      exact hop3 (op_of_fetch_ibld hf) }⟩

/-! Runs. -/

/-- Up to the last index, a command in progress stays in progress, whatever is on the ports
(R177, R179). -/
theorem run_underway {k : Nat} (hb : s.busy = true) (hp : s.InProgress) (hn : s.NoReset k)
    (hk : s.upc.toNat + k ≤ lastIndex s.op) :
    ∃ t, core.run k s = .next t ∧ Underway s t k := by
  induction k generalizing s with
  | zero => exact ⟨s, rfl, .zero hb hp⟩
  | succ k ih =>
    obtain ⟨hr, -⟩ := noReset_succ.mp hn
    obtain ⟨t, hstep, ht⟩ := step_underway hr hb hp (by omega)
    obtain ⟨v, hrun, hv⟩ := ih ht.busy ht.inProgress (noReset_of_step hstep hn)
      (by rw [ht.op, ht.upc]; omega)
    exact ⟨v, (run_succ_of_next hstep k).trans hrun, ht.trans hv⟩

/-- A command in progress completes after the uops that it has left. -/
theorem run_completes {k : Nat} (hb : s.busy = true) (hp : s.InProgress) (hn : s.NoReset (k + 1))
    (hk : s.upc.toNat + k = lastIndex s.op) :
    ∃ t, core.run (k + 1) s = .next t ∧ t.busy = false ∧ t.done = true ∧ t.upc = 0 ∧
      t.op = s.op := by
  obtain ⟨u, hrun, hu⟩ := run_underway hb hp (noReset_mono k.le_succ hn) hk.le
  have hr := rst_of_noReset Nat.one_pos (noReset_of_inputs_drop hu.inputs hn)
  obtain ⟨t, hstep, htb, htd, htu, hto⟩ :=
    step_completes hr hu.busy hu.inProgress (by rw [hu.op, hu.upc, hk])
  exact ⟨t, (run_add hrun 1).trans (run_succ_of_next hstep 0), htb, htd, htu, hto.trans hu.op⟩

/-- What accept leaves is a command in progress at index 0 (R171). -/
theorem inProgress_accept {code : CmdBits} (hc : code ≠ 0) (key din : Block) :
    (s.accept code key din).InProgress :=
  ⟨hc, Nat.zero_le _, rfl⟩

/-- Settles O47: by the two facts about a command in progress, and since accept starts one at
index 0. -/
theorem everyCommandCompletes : Obligations.EveryCommandCompletes := by
  refine ⟨fun s hb hp hn => ⟨?completes, fun k hk => ?before⟩, fun s t hi hr hc hstep => ?accepted⟩
  case completes =>
    have ⟨_, hle, _⟩ := hp
    exact run_completes hb hp hn (Nat.add_sub_cancel' hle)
  case before =>
    have ⟨_, hle, _⟩ := hp
    obtain ⟨u, hrun, hu⟩ := run_underway hb hp (noReset_mono (by omega) hn)
      (show s.upc.toNat + k ≤ lastIndex s.op by omega)
    obtain ⟨-, -, hdone⟩ := hu.inProgress
    exact ⟨u, hrun, hu.busy, hdone, hu.upc⟩
  case accepted =>
    cases hstep.symm.trans (step_idle_of_command hr hi hc)
    refine ⟨rfl, inProgress_accept hc _ _, ?_⟩
    rw [State.accept_op, State.accept_upc]
    generalize s.ports.cmd = code at hc
    decide +revert

/-- Settles O48: only `STS` writes `dout`, and it stands at the last index of `ENC` and `DEC`. -/
theorem doutChangesOnlyAtCompletion : Obligations.DoutChangesOnlyAtCompletion := by
  intro s t hinv hstep hr hd
  obtain ⟨-, -, -, hdout, -⟩ := accessMatrix s t hstep hr
  obtain ⟨hb, hf⟩ := hdout hd
  obtain ⟨hop, h42⟩ := index_of_fetch_sts hf
  obtain ⟨hprog, -⟩ := hinv
  obtain ⟨-, -, hdone⟩ := hprog hb
  refine ⟨hop, h42, ?before, ?after⟩
  case before => rw [State.outputs, hb, hdone]
  case after =>
    obtain ⟨hlast, -⟩ := bookkeepingAfterAUop s _ .sts 42 hr hb hf (exec_sts _) (.inl ⟨hop, rfl⟩)
    cases hstep.symm.trans (hlast (congrArg BitVec.toNat h42))
    rfl

end Sys2Proof.Machine
end

section
/-! SUPPORT. What a microprogram computes, apart from the sequencer that runs it
(43_cipher_driver.md R175, R176, R181): the effect of a list of uops one after the other, and the
lists that the tables of 30_encoding.md R78 to R80 spell with the pseudo-instructions of R83. -/

namespace Sys2Proof.Machine

variable {s t u : State} {us vs : List Instr}

/-! Uops one after the other. -/

/-- The uops of a list, performed in order, lead from one state to the other (no bookkeeping). -/
inductive Performs : List Instr → State → State → Prop where
  | nil (s : State) : Performs [] s s
  | cons {i : Instr} {is : List Instr} {s t u : State} (head : exec i s = .next t)
      (tail : Performs is t u) : Performs (i :: is) s u

theorem Performs.single {i : Instr} (h : exec i s = .next t) : Performs [i] s t :=
  .cons h (.nil t)

theorem Performs.append (h : Performs us s t) (h' : Performs vs t u) :
    Performs (us ++ vs) s u := by
  induction h with
  | nil => exact h'
  | cons head _ ih => exact .cons head (ih h')

/-- A list of rounds folds: each round makes the next state words from those before it, and what
else it reads no round writes. -/
theorem Performs.rounds {ι : Type} {uops : ι → List Instr}
    {round : State → StateWords → ι → StateWords}
    (hframe : ∀ s v, round (s.withWords v) = round s)
    (hround : ∀ s r, Performs (uops r) s (s.withWords (round s s.s r))) (rs : List ι) (s : State) :
    Performs (rs.flatMap uops) s (s.withWords (rs.foldl (round s) s.s)) := by
  induction rs generalizing s with
  | nil => exact .nil s
  | cons r rs ih =>
    have rest := ih (s.withWords (round s s.s r))
    rw [hframe] at rest
    exact (hround s r).append rest

/-! The rounds (R83, R181). -/

/-- The number of a round key, as the operand of `ARK`. -/
def roundArg (r : Fin 11) : BitVec 4 := BitVec.ofNat 4 r.val

theorem exec_ark_roundArg (r : Fin 11) (s : State) :
    exec (.ark (roundArg r)) s = .next (s.withWords (addRoundKey s.w r s.s)) := by
  have e : (roundArg r).toNat = r.val := by
    rw [roundArg, BitVec.toNat_ofNat]
    omega
  rw [exec_ark (by omega)]
  simp only [e]

theorem performs_fround (s : State) (r : Fin 11) :
    Performs (Pseudo.expand (.fround (roundArg r))) s (s.withWords (forwardRound s.w s.s r)) :=
  .cons (exec_sub s) (.cons (exec_shr _) (.cons (exec_mix _) (.single (exec_ark_roundArg r _))))

theorem performs_ffinal (s : State) :
    Performs (Pseudo.expand .ffinal) s
      (s.withWords (addRoundKey s.w 10 (shiftRows (subBytes s.s)))) :=
  .cons (exec_sub s) (.cons (exec_shr _) (.single (exec_ark_roundArg 10 _)))

theorem performs_iround (s : State) (r : Fin 11) :
    Performs (Pseudo.expand (.iround (roundArg r))) s
      (s.withWords (inverseRound s.invBox s.w s.s r)) :=
  .cons (exec_ishr s) (.cons (exec_isub _) (.cons (exec_ark_roundArg r _) (.single (exec_imix _))))

theorem performs_ifinal (s : State) :
    Performs (Pseudo.expand .ifinal) s
      (s.withWords (addRoundKey s.w 0 (invSubBytes s.invBox (invShiftRows s.s)))) :=
  .cons (exec_ishr s) (.cons (exec_isub _) (.single (exec_ark_roundArg 0 _)))

/-! The two ciphers between `LDS` and `STS`. -/

/-- The uops of the forward cipher. -/
def encryptUops : List Instr :=
  .ark 0 :: (([1, 2, 3, 4, 5, 6, 7, 8, 9] : List (Fin 11)).flatMap
    fun r => Pseudo.expand (.fround (roundArg r))) ++ Pseudo.expand .ffinal

/-- The uops of the inverse cipher. -/
def decryptUops : List Instr :=
  .ark 10 :: (([9, 8, 7, 6, 5, 4, 3, 2, 1] : List (Fin 11)).flatMap
    fun r => Pseudo.expand (.iround (roundArg r))) ++ Pseudo.expand .ifinal

theorem performs_encryptUops (s : State) :
    Performs encryptUops s (s.withWords (encryptWords s.w s.s)) :=
  .cons (exec_ark_roundArg 0 s) ((Performs.rounds (round := fun s => forwardRound s.w)
    (fun _ _ => rfl) performs_fround _ _).append (performs_ffinal _))

theorem performs_decryptUops (s : State) :
    Performs decryptUops s (s.withWords (decryptWords s.invBox s.w s.s)) :=
  .cons (exec_ark_roundArg 10 s) ((Performs.rounds (round := fun s => inverseRound s.invBox s.w)
    (fun _ _ => rfl) performs_iround _ _).append (performs_ifinal _))

/-! The whole microprograms. -/

/-- A cipher with the key expansion and the codec around it: `UROM_ENC` and `UROM_DEC` are of this
form (R78, R79). -/
def wholeUops (cipher : List Instr) : List Instr := .kexp :: .lds :: (cipher ++ [.sts])

/-- What a whole microprogram leaves when its cipher makes the words `v` from those loaded. -/
theorem performs_wholeUops {cipher : List Instr} {v : StateWords}
    (h : Performs cipher { s with w := expandKey s.kreg, s := bytesToState s.dreg }
      { s with w := expandKey s.kreg, s := v }) :
    Performs (wholeUops cipher) s
      { s with w := expandKey s.kreg, s := v, dout := stateToBytes v } :=
  .cons (exec_kexp s) (.cons (exec_lds _) (h.append (.single (exec_sts _))))

theorem performs_enc (s : State) :
    Performs (wholeUops encryptUops) s { s with
      w := expandKey s.kreg, s := bytesToState (encryptBlock s.kreg s.dreg)
      dout := encryptBlock s.kreg s.dreg } := by
  rw [encryptBlock, bytesToState_stateToBytes]
  exact performs_wholeUops (performs_encryptUops _)

theorem performs_dec (s : State) :
    Performs (wholeUops decryptUops) s { s with
      w := expandKey s.kreg, s := bytesToState (decryptBlockWith s.invBox s.kreg s.dreg)
      dout := decryptBlockWith s.invBox s.kreg s.dreg } := by
  rw [decryptBlockWith, bytesToState_stateToBytes]
  exact performs_wholeUops (performs_decryptUops _)

end Sys2Proof.Machine
end

section
/-! SUPPORT. The sequencer runs the microprogram it has left (43_cipher_driver.md R172, R173), and
with that each accepted command as a whole (R175, R176, R178). -/

namespace Sys2Proof.Machine

variable {s t u : State} {us : List Instr} {code : CmdBits} {key din : Block}

/-! Uops and the sequencer's own elements. -/

/-- A uop does the same at any index and whatever samples are to come (R33, R177). -/
theorem exec_uop_withSequencer {i : Instr} (hi : i.isCommand = false) (h : exec i s = .next t)
    (upc : Upc) (l : List Ports) :
    exec i (s.withSequencer upc l) = .next (t.withSequencer upc l) := by
  cases i with
  | nop | enc | dec | init => cases hi
  | ark n =>
    have hn := le_ten_of_exec_ark h
    cases (exec_ark hn s).symm.trans h
    exact exec_ark hn _
  | kexp =>
    cases (exec_kexp s).symm.trans h
    exact exec_kexp _
  | ibld =>
    cases (exec_ibld s).symm.trans h
    exact exec_ibld _
  | lds | sts | sub | shr | mix | isub | ishr | imix => cases h; rfl

theorem Performs.withSequencer (h : Performs us s t) (hus : ∀ i ∈ us, i.isCommand = false)
    (upc : Upc) (l : List Ports) :
    Performs us (s.withSequencer upc l) (t.withSequencer upc l) := by
  induction h with
  | nil => exact .nil _
  | cons head _ ih =>
    rw [List.forall_mem_cons] at hus
    obtain ⟨hi, his⟩ := hus
    exact .cons (exec_uop_withSequencer hi head upc l) (ih his)

/-! The uops left. -/

/-- The uops from `upc` to the end of the microprogram in progress are these. -/
def State.Remaining (s : State) (us : List Instr) : Prop :=
  ((urom s.op).drop s.upc.toNat).map (fun w => decode (.uop w)) = us.map Except.ok

theorem isCommand_of_remaining (h : s.Remaining us) : ∀ i ∈ us, i.isCommand = false := by
  intro i hi
  have hm : (Except.ok i : Except DecodeError Instr) ∈ us.map Except.ok := List.mem_map_of_mem hi
  rw [← h, List.mem_map] at hm
  obtain ⟨word, -, hd⟩ := hm
  obtain ⟨-, he⟩ := decode_uop_eq_ok.mp hd
  cases i with
  | nop | enc | dec | init => cases he
  | kexp | lds | sts | sub | shr | mix | ark | ibld | isub | ishr | imix => rfl

/-- The first uop left is the one fetched; the others are left at the next index. -/
theorem remaining_cons {i : Instr} (h : s.Remaining (i :: us)) :
    s.fetch = .ok i ∧
      ((urom s.op).drop (s.upc.toNat + 1)).map (fun w => decode (.uop w)) = us.map Except.ok := by
  unfold State.Remaining at h
  rw [← List.tail_drop]
  cases hd : (urom s.op).drop s.upc.toNat with
  | nil => simp [hd] at h
  | cons word ws =>
    rw [hd, List.map_cons, List.map_cons, List.cons.injEq] at h
    obtain ⟨hw, hws⟩ := h
    have hget : (urom s.op)[s.upc.toNat]? = some word := by
      rw [← List.head?_drop, hd, List.head?_cons]
    exact ⟨fetch_eq_ok.mpr ⟨word, hget, hw⟩, hws⟩

/-- As many uops are left as there are indices from `upc` to the last one (R173). -/
theorem length_of_remaining {i : Instr} (h : s.Remaining (i :: us)) :
    s.upc.toNat + us.length = lastIndex s.op := by
  have hl := congrArg List.length h
  rw [List.length_map, List.length_map, List.length_drop, List.length_cons] at hl
  have hop : s.op ≠ 0 := by
    intro h0
    rw [h0] at hl
    simp [urom] at hl
  rw [urom_length _ hop] at hl
  omega

/-- The core performs the uops it has left, one a step, and completes the command (R172, R173). -/
theorem run_of_remaining (hne : us ≠ []) (hb : s.busy = true) (hn : s.NoReset us.length)
    (hus : s.Remaining us) (hp : Performs us s t) :
    core.run us.length s = .next { t with
      upc := 0, busy := false, done := true, inputs := s.inputs.drop us.length } := by
  induction us generalizing s t with
  | nil => exact absurd rfl hne
  | cons i us ih =>
    obtain ⟨hr, -⟩ := noReset_succ.mp hn
    obtain ⟨hf, hrest⟩ := remaining_cons hus
    have hlen := length_of_remaining hus
    obtain ⟨hi, his⟩ := List.forall_mem_cons.mp (isCommand_of_remaining hus)
    obtain _ | ⟨head, tail⟩ := hp
    obtain ⟨hop, -, hbusy, -⟩ := exec_uop_control hi head
    obtain rfl | hne' := eq_or_ne us []
    · -- The last uop: nothing is left to perform after it.
      cases tail
      rw [List.length_singleton, List.drop_one]
      exact run_succ_of_next (step_last_uop hr hb hf head hlen) 0
    · have hpos := List.length_pos_iff.mpr hne'
      have hstep := step_earlier_uop hr hb hf head (by omega)
      rw [← toNat_upc_succ (by omega), ← hop] at hrest
      have hrun := ih (s := State.withSequencer _ (s.upc + 1) s.inputs.tail) hne' (hbusy.trans hb)
        (noReset_of_step hstep hn) hrest (tail.withSequencer his _ _)
      rw [List.length_cons, run_succ_of_next hstep, hrun, ← List.drop_tail]
      rfl

/-! A command as a whole. -/

/-- Accept, then the run of the command that was accepted (R171). -/
theorem run_of_command (hi : s.Idle)
    (hports : s.ports = { rst := false, cmd := code, key := key, din := din }) (hc : code ≠ 0)
    (n : Nat) : core.run (n + 1) s = core.run n (s.nextEdge.accept code key din) := by
  have hstep := step_idle_of_command (s := s) (by rw [hports]) hi (by rw [hports]; exact hc)
  rw [hports] at hstep
  exact run_succ_of_next hstep n

/-- Before it completes, an accepted command shows the previous result, busy and not done, and
leaves the table alone unless it is `INIT` (R175, R176, R178). -/
theorem outputs_before_completion (hi : s.Idle)
    (hports : s.ports = { rst := false, cmd := code, key := key, din := din }) (hc : code ≠ 0)
    {k : Nat} (hn : s.NoReset k) (hpos : 0 < k) (hk : k ≤ lastIndex code + 1) :
    ∃ u, core.run k s = .next u ∧ u.outputs = { dout := s.dout, busy := true, done := false } ∧
      (code ≠ 3 → u.invBox = s.invBox) := by
  obtain ⟨m, rfl⟩ := Nat.exists_eq_add_of_lt hpos
  rw [Nat.zero_add] at hn hk ⊢
  obtain ⟨-, hn'⟩ := noReset_succ.mp hn
  obtain ⟨u, hrun, hu⟩ := run_underway (s := s.nextEdge.accept code key din) (k := m) rfl
    (inProgress_accept hc key din) hn' ((Nat.zero_add m).trans_le (Nat.le_of_succ_le_succ hk))
  obtain ⟨-, -, hdone⟩ := hu.inProgress
  refine ⟨u, (run_of_command hi hports hc m).trans hrun, ?_, hu.invBox⟩
  simp only [State.outputs, hu.dout, hu.busy, hdone, State.accept_dout, State.nextEdge_dout]

/-- Only `ENC` and `DEC` have a last index other than 0 (R173). -/
theorem ne_of_lastIndex (h : lastIndex code = 42) : code ≠ 0 ∧ code ≠ 3 := by
  decide +revert

/-- The same of the two ciphers, whose last index is 42 (R173). -/
theorem cipher_before_completion (hi : s.Idle)
    (hports : s.ports = { rst := false, cmd := code, key := key, din := din })
    (hlast : lastIndex code = 42) (hn : s.NoReset 44) {k : Nat} (hpos : 0 < k) (hk : k < 44) :
    ∃ u, core.run k s = .next u ∧ u.outputs = { dout := s.dout, busy := true, done := false } ∧
      u.invBox = s.invBox := by
  obtain ⟨hc0, hc3⟩ := ne_of_lastIndex hlast
  obtain ⟨u, hrun, hout, hbox⟩ := outputs_before_completion hi hports hc0 (noReset_mono hk.le hn)
    hpos (by omega)
  exact ⟨u, hrun, hout, hbox hc3⟩

/-- A command whose microprogram is the uops of `us` leaves what they make of the accepted state. -/
theorem run_whole_command {n : Nat} (hi : s.Idle)
    (hports : s.ports = { rst := false, cmd := code, key := key, din := din }) (hc : code ≠ 0)
    (hlen : us.length = n + 1) (hn : s.NoReset (n + 2))
    (hus : (urom code).map (fun w => decode (.uop w)) = us.map Except.ok)
    (hp : Performs us (s.nextEdge.accept code key din) t) :
    core.run (n + 2) s = .next { t with
      upc := 0, busy := false, done := true, inputs := s.inputs.drop (n + 2) } := by
  obtain ⟨-, hn'⟩ := noReset_succ.mp hn
  have hne : us ≠ [] := List.ne_nil_of_length_eq_add_one hlen
  have hrem : (s.nextEdge.accept code key din).Remaining us := hus
  rw [run_of_command hi hports hc, ← hlen, run_of_remaining hne rfl (hlen ▸ hn') hrem hp, hlen]
  simp

/-- Settles O49: the microprogram of `ENC` is the expansion of the key and the forward cipher
between the two codec uops. -/
theorem encryptCommandDeliversTheCiphertext : Obligations.EncryptCommandDeliversTheCiphertext := by
  refine fun s key din hi hports hn => ⟨?whole, fun k hpos hk => ?before⟩
  case whole =>
    exact run_whole_command hi hports (by decide) rfl hn (by decide) (performs_enc _)
  case before => exact cipher_before_completion hi hports rfl hn hpos hk

/-- Settles O50: the same with the inverse cipher, by whatever the table holds. -/
theorem decryptCommandDeliversThePlaintext : Obligations.DecryptCommandDeliversThePlaintext := by
  refine fun s key din hi hports hn => ⟨?whole, fun hb => ?built, fun k hpos hk => ?before⟩
  case whole =>
    exact run_whole_command hi hports (by decide) rfl hn (by decide) (performs_dec _)
  case built => rw [hb, decryptBlock]
  case before => exact cipher_before_completion hi hports rfl hn hpos hk

/-- Settles O51: the microprogram of `INIT` is the one uop `IBLD`. -/
theorem initCommandBuildsTheTable : Obligations.InitCommandBuildsTheTable := by
  refine fun s key din hi hports hn => ⟨?whole, ?before⟩
  case whole =>
    exact run_whole_command hi hports (by decide) rfl hn (by decide) (.single (exec_ibld _))
  case before =>
    obtain ⟨u, hrun, hout, -⟩ := outputs_before_completion hi hports (by decide)
      (noReset_mono (by decide) hn) Nat.one_pos (by decide)
    exact ⟨u, hrun, hout⟩

end Sys2Proof.Machine
end

section
/-! SUPPORT. The two ciphers undo each other, on values and on the ports (43_cipher_driver.md R180,
R181). Each round of one cipher undoes the corresponding round of the other, seen through the two
transforms that stand before the round key; so the rounds, taken in the opposite order, undo one
another. -/

namespace Sys2Proof.Machine

/-! On values. -/

/-- When every `g · r` undoes `f · r` seen through `p`, the `g`s in the opposite order undo all the
`f`s seen through `p`. -/
theorem foldl_reverse_undoes {α ι : Type} {f g : α → ι → α} {p : α → α}
    (h : ∀ a r, g (p (f a r)) r = p a) (l : List ι) (a : α) :
    l.reverse.foldl g (p (l.foldl f a)) = p a := by
  induction l generalizing a with
  | nil => rfl
  | cons r l ih =>
    rw [List.reverse_cons, List.foldl_append]
    calc g (l.reverse.foldl g (p (l.foldl f (f a r)))) r = g (p (f a r)) r := by rw [ih]
      _ = p a := h a r

theorem inverseRound_forwardRound (w : Schedule) (s : StateWords) (r : Fin 11) :
    inverseRound builtInvBox w (shiftRows (subBytes (forwardRound w s r))) r =
      shiftRows (subBytes s) := by
  rw [inverseRound, invShiftRows_shiftRows, invSubBytes_subBytes, forwardRound,
    addRoundKey_addRoundKey, invMixColumns_mixColumns]

theorem forwardRound_inverseRound (w : Schedule) (s : StateWords) (r : Fin 11) :
    forwardRound w (invSubBytes builtInvBox (invShiftRows (inverseRound builtInvBox w s r))) r =
      invSubBytes builtInvBox (invShiftRows s) := by
  rw [forwardRound, subBytes_invSubBytes, shiftRows_invShiftRows, inverseRound,
    mixColumns_invMixColumns, addRoundKey_addRoundKey]

theorem decryptWords_encryptWords (w : Schedule) (s : StateWords) :
    decryptWords builtInvBox w (encryptWords w s) = s := by
  have rounds := foldl_reverse_undoes (p := fun s => shiftRows (subBytes s))
    (inverseRound_forwardRound w) [1, 2, 3, 4, 5, 6, 7, 8, 9] (addRoundKey w 0 s)
  simp only [List.reverse_cons, List.reverse_nil, List.nil_append, List.cons_append] at rounds
  rw [decryptWords, encryptWords, addRoundKey_addRoundKey, rounds, invShiftRows_shiftRows,
    invSubBytes_subBytes, addRoundKey_addRoundKey]

theorem encryptWords_decryptWords (w : Schedule) (s : StateWords) :
    encryptWords w (decryptWords builtInvBox w s) = s := by
  have rounds := foldl_reverse_undoes (p := fun s => invSubBytes builtInvBox (invShiftRows s))
    (forwardRound_inverseRound w) [9, 8, 7, 6, 5, 4, 3, 2, 1] (addRoundKey w 10 s)
  simp only [List.reverse_cons, List.reverse_nil, List.nil_append, List.cons_append] at rounds
  rw [encryptWords, decryptWords, addRoundKey_addRoundKey, rounds, subBytes_invSubBytes,
    shiftRows_invShiftRows, addRoundKey_addRoundKey]

/-- Settles O52: the codec and the ciphers on words undo each other. -/
theorem decryptUndoesEncrypt : Obligations.DecryptUndoesEncrypt := by
  refine ⟨fun key block => ?dec_enc, fun key block => ?enc_dec⟩
  case dec_enc =>
    rw [decryptBlock, decryptBlockWith, encryptBlock, bytesToState_stateToBytes,
      decryptWords_encryptWords, stateToBytes_bytesToState]
  case enc_dec =>
    rw [decryptBlock, decryptBlockWith, encryptBlock, bytesToState_stateToBytes,
      encryptWords_decryptWords, stateToBytes_bytesToState]

/-! On the ports. -/

variable {s : State} {key block : Block}

theorem ports_of_getElem?_inputs {n : Nat} {t : State} {p : Ports}
    (ht : t.inputs = s.inputs.drop n) (h : s.inputs[n]? = some p) : t.ports = p := by
  rw [State.ports, ht, List.headD_eq_head?_getD, List.head?_drop, h, Option.getD_some]

/-- A completed `ENC` leaves the core idle, with the ciphertext on `dout`, and leaves the table and
the later samples alone. -/
theorem run_enc (hi : s.Idle)
    (hports : s.ports = { rst := false, cmd := 1, key := key, din := block })
    (hn : s.NoReset 44) :
    ∃ t, core.run 44 s = .next t ∧
      t.outputs = { dout := encryptBlock key block, busy := false, done := true } ∧
      t.invBox = s.invBox ∧ t.inputs = s.inputs.drop 44 := by
  obtain ⟨hrun, -⟩ := encryptCommandDeliversTheCiphertext s key block hi hports hn
  exact ⟨_, hrun, rfl, rfl, rfl⟩

/-- A `DEC` of a ciphertext by the built table delivers the plaintext. -/
theorem run_dec_of_ciphertext (hi : s.Idle) (hb : s.Built)
    (hports : s.ports = { rst := false, cmd := 2, key := key, din := encryptBlock key block })
    (hn : s.NoReset 44) :
    ∃ t, core.run 44 s = .next t ∧
      t.outputs = { dout := block, busy := false, done := true } := by
  obtain ⟨hrun, hbuilt, -⟩ := decryptCommandDeliversThePlaintext s key _ hi hports hn
  obtain ⟨dec_enc, -⟩ := decryptUndoesEncrypt
  rw [hbuilt hb, dec_enc] at hrun
  exact ⟨_, hrun, rfl⟩

/-- Settles O53: the two commands as a whole, and the round trip on values; the `DEC` may be
accepted later or at the very next edge. -/
theorem roundTripOnThePorts : Obligations.RoundTripOnThePorts := by
  obtain ⟨dec_enc, enc_dec⟩ := decryptUndoesEncrypt
  refine ⟨?later, ?next_edge, dec_enc, enc_dec⟩
  case later =>
    intro s t s' key block hi hports hn hrun hi' hb' hports' hn'
    obtain ⟨t₁, hrun₁, hout, -⟩ := run_enc hi hports hn
    cases hrun.symm.trans hrun₁
    have hdout : t.dout = encryptBlock key block := congrArg Outputs.dout hout
    rw [hdout] at hports'
    exact run_dec_of_ciphertext hi' hb' hports' hn'
  case next_edge =>
    intro s key block hi hb hn henc hdec
    obtain ⟨t, hrun, hout, hbox, hin⟩ := run_enc hi (ports_of_getElem?_inputs (n := 0) rfl henc)
      (noReset_mono (by decide) hn)
    obtain ⟨u, hrun', hout'⟩ := run_dec_of_ciphertext (congrArg Outputs.busy hout) (hbox.trans hb)
      (ports_of_getElem?_inputs hin hdec) (noReset_of_inputs_drop hin hn)
    exact ⟨t, u, hrun, (run_add hrun 44).trans hrun', hout, hout'⟩

end Sys2Proof.Machine
end

section
/-! SUPPORT. What a clock edge answers in every state, one the control invariant excludes included:
the four events of 60_exceptions.md R204 in their priority, and the step as a total function but for
a fetch that has no uop (R200; 43_cipher_driver.md R172). -/

namespace Sys2Proof.Machine

variable {s : State}

/-- A fetch without an answer has run out of the microprogram, since none holds a reserved word
(R81, R172). -/
theorem fetch_eq_error {r : Refusal} (h : s.fetch = .error r) :
    s.op = 0 ∧ r = .noMicroprogram ∨ s.op ≠ 0 ∧ r = .upcPastEnd s.upc := by
  unfold State.fetch at h
  cases hw : (urom s.op)[s.upc.toNat]? with
  | none =>
    rw [hw] at h
    by_cases hop : s.op = 0
    · exact .inl ⟨hop, Except.error.inj (h.symm.trans (if_pos hop))⟩
    · exact .inr ⟨hop, Except.error.inj (h.symm.trans (if_neg hop))⟩
  | some word =>
    obtain ⟨u, hd⟩ := exists_decode_of_mem_urom (List.mem_of_getElem? hw)
    rw [hw] at h
    simp [hd] at h

/-- Every step has a next state, but for that of a busy core whose fetch has no answer (R200). -/
theorem step_next_or_refused (s : State) :
    (∃ t, step s = .next t) ∨
      ∃ r, s.busy = true ∧ s.fetch = .error r ∧ step s = .refused r := by
  cases hr : s.ports.rst with
  | true => exact .inl ⟨_, step_of_rst hr⟩
  | false =>
    cases hb : s.busy with
    | false => exact .inl ⟨_, step_idle_eq hr hb⟩
    | true =>
      cases hf : s.fetch with
      | ok u =>
        obtain ⟨hu, hwf⟩ := fetch_ok_uop hf
        obtain ⟨t, hx⟩ := exec_uop_next hu hwf s.nextEdge
        exact .inl ⟨_, step_of_exec hr hb hf hx⟩
      | error r => exact .inr ⟨r, rfl, rfl, by rw [step_of_busy hr hb, stepBusy, hf]⟩

/-- A fetch without an answer is that of no command in progress. -/
theorem not_inProgress_of_fetch_error {r : Refusal} (h : s.fetch = .error r) : ¬s.InProgress := by
  intro hp
  obtain ⟨u, hu⟩ := fetch_of_inProgress hp
  cases h.symm.trans hu

/-- Settles O44: the only step without a next state is a refused fetch, and the invariant gives a
busy core a command in progress. -/
theorem stepAlwaysAnswersNext : Obligations.StepAlwaysAnswersNext := by
  refine ⟨fun s hinv => ?next, fun s f => ?fault, fun s r h => ?refused⟩
  case next =>
    obtain ⟨hprog, -⟩ := hinv
    obtain hnext | ⟨r, hb, hf, -⟩ := step_next_or_refused s
    · exact hnext
    · exact absurd (hprog hb) (not_inProgress_of_fetch_error hf)
  case fault => exact nomatch f
  case refused =>
    obtain ⟨t, ht⟩ | ⟨r', hb, hf, hr'⟩ := step_next_or_refused s
    · cases h.symm.trans ht
    · cases h.symm.trans hr'
      exact ⟨hb, not_inProgress_of_fetch_error hf, fetch_eq_error hf⟩

/-- A busy core uses up the sample at its edge and reads nothing of it (R177). -/
theorem stepBusy_cons_inputs (s : State) (p q : Ports) (rest : List Ports) :
    stepBusy { s with inputs := p :: rest } = stepBusy { s with inputs := q :: rest } :=
  rfl

/-- Settles O36: each of the four events is the edge that its guards select. -/
theorem priorityOfEvents : Obligations.PriorityOfEvents := by
  refine ⟨fun s => step_of_rst, fun s p q rest hb hp hq => ?blind, fun s u => step_of_fetch,
    fun s => step_idle_of_command, fun s => step_idle_of_no_command⟩
  case blind =>
    calc step { s with inputs := p :: rest }
      _ = stepBusy { s with inputs := p :: rest } := step_of_busy hp hb
      _ = stepBusy { s with inputs := q :: rest } := stepBusy_cons_inputs s p q rest
      _ = step { s with inputs := q :: rest } := Eq.symm (step_of_busy hq hb)

end Sys2Proof.Machine
end

section
/-! SUPPORT. Decoding and encoding agree, over words and over strings of bytes (30_encoding.md
sections 2, 4, 6): a number is known by its bytes, a word by its layout (log 9), a command word by
its three fields (R71), and a uop word by the decoder's law `decode_uop_eq_ok`. -/

namespace Sys2Proof

variable {i : Instr} {c : Code} {bs : List Byte}

/-! Numbers and their bytes. -/

theorem natOfBytes_lt (bs : List Byte) : natOfBytes bs < 256 ^ bs.length := by
  induction bs with
  | nil => exact Nat.one_pos
  | cons b bs ih =>
    have hb : b.toNat < 256 := b.isLt
    rw [natOfBytes, List.length_cons, Nat.pow_succ]
    omega

theorem natOfBytes_bytesOfNat {n v : Nat} (h : v < 256 ^ n) : natOfBytes (bytesOfNat n v) = v := by
  induction n generalizing v with
  | zero => exact (Nat.lt_one_iff.mp h).symm
  | succ n ih =>
    rw [bytesOfNat, natOfBytes, ih (by omega), BitVec.toNat_ofNat]
    omega

theorem bytesOfNat_natOfBytes (bs : List Byte) : bytesOfNat bs.length (natOfBytes bs) = bs := by
  induction bs with
  | nil => rfl
  | cons b bs ih =>
    have hb : b.toNat < 256 := b.isLt
    have low : BitVec.ofNat 8 (natOfBytes (b :: bs)) = b := by
      apply BitVec.eq_of_toNat_eq
      rw [natOfBytes, BitVec.toNat_ofNat]
      omega
    have high : natOfBytes (b :: bs) / 256 = natOfBytes bs := by
      rw [natOfBytes]
      omega
    rw [List.length_cons, bytesOfNat, low, high, ih]

/-! Words and their bytes (log 9). -/

theorem codeOfBytes_eq_uop {w : UopWord} (hlen : bs.length = 1) (value : natOfBytes bs = w.toNat) :
    codeOfBytes bs = .ok (.uop w) := by
  rw [codeOfBytes, if_pos hlen, value, BitVec.ofNat_toNat, BitVec.setWidth_eq]

theorem codeOfBytes_eq_command {w : CmdWord} (hlen : bs.length = 33)
    (value : natOfBytes bs = w.toNat) : codeOfBytes bs = .ok (.command w) := by
  have fits := value.trans_lt w.isLt
  rw [codeOfBytes, if_neg (by omega), if_pos hlen, if_pos fits, value, BitVec.ofNat_toNat,
    BitVec.setWidth_eq]

/-- A command word has six bits less than its 33 bytes. -/
theorem cmdWord_lt (w : CmdWord) : w.toNat < 256 ^ 33 :=
  calc w.toNat < _ := w.isLt
    _ < 2 ^ (8 * 33) := Nat.pow_lt_pow_right (by decide) (by decide)
    _ = 256 ^ 33 := Nat.pow_mul 2 8 33

theorem codeOfBytes_bytesOfCode (c : Code) : codeOfBytes (bytesOfCode c) = .ok c := by
  cases c with
  | uop w =>
    exact codeOfBytes_eq_uop (Laws.EncodedFormat.length_bytesOfNat 1 _)
      (natOfBytes_bytesOfNat w.isLt)
  | command w =>
    exact codeOfBytes_eq_command (Laws.EncodedFormat.length_bytesOfNat 33 _)
      (natOfBytes_bytesOfNat (cmdWord_lt w))

theorem bytesOfCode_of_codeOfBytes (h : codeOfBytes bs = .ok c) : bytesOfCode c = bs := by
  have bytes := bytesOfNat_natOfBytes bs
  unfold codeOfBytes at h
  split at h
  next one =>
    cases h
    have bound : natOfBytes bs < 256 ^ bs.length := natOfBytes_lt bs
    rw [one] at bytes bound
    have value : (BitVec.ofNat 8 (natOfBytes bs)).toNat = natOfBytes bs := Nat.mod_eq_of_lt bound
    rw [bytesOfCode, value, bytes]
  · split at h
    next long =>
      split at h
      next fits =>
        cases h
        rw [long] at bytes
        rw [bytesOfCode, BitVec.toNat_ofNat, Nat.mod_eq_of_lt fits, bytes]
      · cases h
    · cases h

/-! Command words (R71, R72). -/

theorem cmdWord_cmdCode_cmdKey_cmdDin (w : CmdWord) :
    cmdWord (cmdCode w) (cmdKey w) (cmdDin w) = w := by
  have operands : cmdKey w ++ cmdDin w = w.extractLsb' 0 256 :=
    BitVec.extractLsb'_append_extractLsb'_eq_extractLsb' rfl
  rw [cmdWord, operands]
  exact (BitVec.extractLsb'_append_extractLsb'_eq_extractLsb' rfl).trans BitVec.extractLsb'_eq_self

theorem wellFormed_commandOf (code : CmdBits) (key din : Block) :
    (commandOf code key din).wellFormed = true := by
  unfold commandOf
  split <;> rfl

theorem encode_commandOf (code : CmdBits) (key din : Block) :
    encode (commandOf code key din) = .command (cmdWord code key din) := by
  obtain ⟨k⟩ := code
  fin_cases k <;> rfl

/-! Both formats. -/

theorem decode_encode (hi : i.wellFormed = true) : decode (encode i) = .ok i := by
  cases i with
  | nop key din => exact congrArg Except.ok (Machine.decodeCommand_cmdWord 0 key din)
  | enc key din => exact congrArg Except.ok (Machine.decodeCommand_cmdWord 1 key din)
  | dec key din => exact congrArg Except.ok (Machine.decodeCommand_cmdWord 2 key din)
  | init key din => exact congrArg Except.ok (Machine.decodeCommand_cmdWord 3 key din)
  | kexp | lds | sts | sub | shr | mix | ark n | ibld | isub | ishr | imix =>
    exact decode_uop_eq_ok.mpr ⟨hi, rfl⟩

theorem encode_of_decode (h : decode c = .ok i) : i.wellFormed = true ∧ encode i = c := by
  cases c with
  | uop w => exact decode_uop_eq_ok.mp h
  | command w =>
    obtain rfl : decodeCommand w = i := Except.ok.inj h
    refine ⟨wellFormed_commandOf _ _ _, ?_⟩
    rw [decodeCommand, encode_commandOf, cmdWord_cmdCode_cmdKey_cmdDin]

theorem decodeBytes_eq_ok_iff :
    decodeBytes bs = .ok i ↔ ∃ c, codeOfBytes bs = .ok c ∧ decode c = .ok i := by
  unfold decodeBytes
  cases codeOfBytes bs <;> simp

theorem decodeBytes_encodeBytes (hi : i.wellFormed = true) : decodeBytes (encodeBytes i) = .ok i :=
  decodeBytes_eq_ok_iff.mpr ⟨encode i, codeOfBytes_bytesOfCode _, decode_encode hi⟩

theorem encodeBytes_of_decodeBytes (h : decodeBytes bs = .ok i) :
    i.wellFormed = true ∧ encodeBytes i = bs := by
  obtain ⟨c, hc, hd⟩ := decodeBytes_eq_ok_iff.mp h
  obtain ⟨hi, rfl⟩ := encode_of_decode hd
  exact ⟨hi, bytesOfCode_of_codeOfBytes hc⟩

/-- Settles O4: the layout in bytes loses nothing of a word, and the word nothing of the
instruction; what decodes is laid out again as the same bytes. -/
theorem decodeUndoesEncode : Obligations.DecodeUndoesEncode :=
  ⟨fun _ => decodeBytes_encodeBytes, fun _ _ => encodeBytes_of_decodeBytes⟩

end Sys2Proof
end

section
/-! SUPPORT. Fixed words and the constant tables: the sanity checks of 30_encoding.md sections 2, 4,
5 and 7, and the reserved form of `ARK` (R81, R136). -/

namespace Sys2Proof.Machine

variable {n : BitVec 4}

/-- Settles O1: each of these words is decoded. -/
theorem specWordsDecode : Obligations.SpecWordsDecode := by
  unfold Obligations.SpecWordsDecode
  decide

/-- Settles O6: the 43 words of each table are decoded and compared with the expansion. -/
theorem pseudoInstructionsSpellTheMicroprograms :
    Obligations.PseudoInstructionsSpellTheMicroprograms :=
  ⟨rfl, rfl⟩

theorem decode_ne_ark_of_reserved (hn : 11 ≤ n.toNat) (w : UopWord) :
    decode (.uop w) ≠ .ok (.ark n) := by
  intro h
  obtain ⟨hwf, -⟩ := decode_uop_eq_ok.mp h
  have hle : n.toNat ≤ 10 := of_decide_eq_true hwf
  omega

theorem exec_ark_of_reserved (hn : 11 ≤ n.toNat) (s : State) :
    exec (.ark n) s = .refused (.reservedRound n) :=
  dif_neg (Nat.not_le_of_lt hn)

/-- Settles O26: what decodes is well formed, and `ARK n` is so for n up to 10 only. -/
theorem arkReservedRoundIsRefused : Obligations.ArkReservedRoundIsRefused :=
  fun _ hn => ⟨decode_ne_ark_of_reserved hn, exec_ark_of_reserved hn⟩

end Sys2Proof.Machine
end

section
/-! SUPPORT. The forward box against the field (40_codec_gf_sbox.md R106, R107). -/

namespace Sys2Proof.Machine

theorem sbox_ne_self (x : Byte) : sbox x ≠ x := by
  have h : ∀ n : Fin 256, sbox ⟨n⟩ ≠ ⟨n⟩ := by decide +kernel
  exact h x.toFin

theorem sbox_ne_complement (x : Byte) : sbox x ≠ x ^^^ 0xFF := by
  have h : ∀ n : Fin 256, sbox ⟨n⟩ ≠ (⟨n⟩ : Byte) ^^^ 0xFF := by decide +kernel
  exact h x.toFin

/-- Settles O7: the built `InvBox` undoes the box on both sides, and no entry is its index or the
opposite of it. -/
theorem forwardBoxIsAPermutation : Obligations.ForwardBoxIsAPermutation :=
  ⟨sbox_bijective, sbox_ne_self, sbox_ne_complement⟩

/-- The affine map of R106. -/
def affineMap (v : Byte) : Byte :=
  v ^^^ v.rotateLeft 1 ^^^ v.rotateLeft 2 ^^^ v.rotateLeft 3 ^^^ v.rotateLeft 4 ^^^ 0x63

/-- The affine map undoes the inverse map by which `fieldInv` reads the box. -/
theorem sbox_eq_affineMap_fieldInv (x : Byte) : sbox x = affineMap (fieldInv x) := by
  have h : ∀ n : Fin 256, sbox ⟨n⟩ = affineMap (fieldInv ⟨n⟩) := by decide +kernel
  exact h x.toFin

theorem fieldInv_zero : fieldInv 0 = 0 := by decide

/-- Settles O8: the inverse is the one read off the box by the inverse of the affine map. -/
theorem forwardBoxIsTheAffineImageOfTheInverse :
    Obligations.ForwardBoxIsTheAffineImageOfTheInverse := by
  intro x
  refine ⟨fieldInv x, ?inverse, sbox_eq_affineMap_fieldInv x⟩
  case inverse =>
    by_cases hx : x = 0
    · exact .inl ⟨hx, hx ▸ fieldInv_zero⟩
    · exact .inr (mul_fieldInv hx)

end Sys2Proof.Machine
end

section
/-! SUPPORT. The statements about the column transforms (41_round_transforms.md R134, R135): their
four equations, and linearity, which is that of a product with a fixed polynomial. -/

namespace Sys2Proof.Machine

theorem pack_xor_pack (a b c d a' b' c' d' : Byte) :
    pack a b c d ^^^ pack a' b' c' d' = pack (a ^^^ a') (b ^^^ b') (c ^^^ c') (d ^^^ d') :=
  word_ext fun j => by
    rw [byte_xor]
    fin_cases j <;> simp

theorem columnMul_xor_right (a : Word) : XorAdditive (columnMul a) := fun x y => by
  have right (p q r : Byte) : mul p (q ^^^ r) = mul p q ^^^ mul p r := mul_xor_right p q r
  simp only [columnMul, byte_xor, right, pack_xor_pack, pack_inj]
  refine ⟨?_, ?_, ?_, ?_⟩ <;> ac_rfl

/-- On a word of four equal bytes every lane of the product is the sum of the coefficients times
that byte. -/
theorem columnMul_equal_bytes {a : Word}
    (h : byte a 0 ^^^ byte a 1 ^^^ byte a 2 ^^^ byte a 3 = 1) (b : Byte) :
    columnMul a (pack b b b b) = pack b b b b := by
  have sum :
      mul (byte a 0) b ^^^ mul (byte a 1) b ^^^ mul (byte a 2) b ^^^ mul (byte a 3) b = b := by
    have left (p q : Byte) : mul p b ^^^ mul q b = mul (p ^^^ q) b := (mul_xor_left b p q).symm
    rw [left, left, left, h, Machine.one_mul]
  simp only [columnMul, byte_pack_zero, byte_pack_one, byte_pack_two, byte_pack_three, pack_inj]
  refine ⟨?_, ?_, ?_, ?_⟩ <;> · refine Eq.trans ?_ sum; ac_rfl

/-- Settles O30: both transforms are products with a fixed polynomial, whose coefficients have the
sum 1. -/
theorem mixColumnsIsLinear : Obligations.MixColumnsIsLinear := by
  refine ⟨fun x y => ?mix, fun x y => ?imix, fun b => ⟨?mixEqual, ?imixEqual⟩⟩
  case mix => simp only [mixColumn_eq_columnMul, columnMul_xor_right _ x y]
  case imix => simp only [invMixColumn_eq_columnMul, columnMul_xor_right _ x y]
  case mixEqual =>
    rw [mixColumn_eq_columnMul]
    exact columnMul_equal_bytes (by decide) b
  case imixEqual =>
    rw [invMixColumn_eq_columnMul]
    exact columnMul_equal_bytes (by decide) b

/-- Settles O23: the words are mixed one by one, each by the four equations. -/
theorem mixMixesEachColumn : Obligations.MixMixesEachColumn := by
  refine ⟨rfl, fun s => ⟨mixColumns s.s, exec_mix s, fun i b0 b1 b2 b3 hword => ?lanes⟩⟩
  case lanes =>
    rw [getElem_mixColumns, hword]
    simp only [mixColumn, byte_pack_zero, byte_pack_one, byte_pack_two, byte_pack_three, and_self]

/-- Settles O24: the words are mixed one by one, each by the four equations. -/
theorem imixMixesEachColumnBack : Obligations.ImixMixesEachColumnBack := by
  refine ⟨rfl, fun s => ⟨invMixColumns s.s, exec_imix s, fun i b0 b1 b2 b3 hword => ?lanes⟩⟩
  case lanes =>
    rw [getElem_invMixColumns, hword]
    simp only [invMixColumn, byte_pack_zero, byte_pack_one, byte_pack_two, byte_pack_three,
      and_self]

end Sys2Proof.Machine
end

section
/-! SUPPORT. The reset event: what one leaves and what several in a row leave (10_state.md R32;
70_reset_and_hazards.md R220, R221; 93_implementation_defined.md U1). -/

namespace Sys2Proof.Machine

variable {s : State}

/-- With reset at the next n + 1 edges there is reset at the next one and at the n after it. -/
theorem resets_succ {n : Nat} (hlen : n + 1 ≤ s.inputs.length)
    (hrst : ∀ p ∈ s.inputs.take (n + 1), p.rst = true) :
    s.ports.rst = true ∧ n ≤ s.inputs.tail.length ∧
      ∀ p ∈ s.inputs.tail.take n, p.rst = true := by
  unfold State.ports
  cases hs : s.inputs with
  | nil => simp [hs] at hlen
  | cons p ps =>
    rw [hs] at hlen hrst
    rw [List.take_succ_cons, List.forall_mem_cons] at hrst
    obtain ⟨hp, hps⟩ := hrst
    exact ⟨hp, Nat.le_of_succ_le_succ hlen, hps⟩

/-- Several edges with reset leave what one does, each with a sample used up. -/
theorem run_of_resets {n : Nat} (hlen : n + 1 ≤ s.inputs.length)
    (hrst : ∀ p ∈ s.inputs.take (n + 1), p.rst = true) :
    ∃ d, core.run (n + 1) s =
      .next (State.afterReset s.invBoxAtReset d (s.inputs.drop (n + 1))) := by
  induction n generalizing s with
  | zero =>
    obtain ⟨hr, -⟩ := resets_succ hlen hrst
    refine ⟨s.draws, (run_succ_of_next (step_of_rst hr) 0).trans ?_⟩
    rw [run_zero, List.drop_one]
    rfl
  | succ n ih =>
    obtain ⟨hr, hlen', hrst'⟩ := resets_succ hlen hrst
    obtain ⟨d, hrun⟩ := ih (s := s.nextEdge.resetEvent) hlen' hrst'
    refine ⟨d, (run_succ_of_next (step_of_rst hr) (n + 1)).trans (hrun.trans ?_)⟩
    simp only [State.resetEvent_inputs, State.nextEdge_inputs, State.resetEvent_invBoxAtReset,
      State.nextEdge_invBoxAtReset, List.drop_tail]

theorem afterReset_invBox (b : Bool) (draws : Nat) (inputs : List Ports) :
    (State.afterReset b draws inputs).invBox = if b then builtInvBox else drawnInvBox draws :=
  rfl

/-- Settles O39: every edge with reset leaves the tuple of R32, so only the samples and the number
of bytes drawn tell one such edge from several. -/
theorem resetClearsEverything : Obligations.ResetClearsEverything := by
  intro n s hn hlen hrst
  obtain ⟨m, rfl⟩ := Nat.exists_eq_add_of_le' hn
  obtain ⟨d, hrun⟩ := run_of_resets hlen hrst
  refine ⟨_, hrun, rfl, rfl, rfl, rfl, rfl, rfl, rfl, rfl, rfl, ?built, ?drawn, rfl, rfl⟩
  case built =>
    intro hparam
    exact (afterReset_invBox _ d _).trans (if_pos hparam)
  case drawn =>
    intro hparam
    exact ⟨d, (afterReset_invBox _ d _).trans (by rw [hparam]; rfl)⟩

/-- Settles O40: the zeros are read off the tuple of R32; its table is the built one. -/
theorem resetStateValues : Obligations.ResetStateValues :=
  ⟨fun i => Vector.getElem_replicate i.isLt, fun i => Vector.getElem_replicate i.isLt,
    rfl, rfl, rfl, rfl, rfl, rfl, rfl, rfl, readInvBox_builtInvBox_sbox⟩

/-- Settles O41: the reset event draws the table and counts the 256 bytes. -/
theorem unbuiltTableIsDrawnAfresh : Obligations.UnbuiltTableIsDrawnAfresh := by
  intro s hr hparam
  refine ⟨_, step_of_rst hr, fun a => ?entry, ?draws⟩
  case entry =>
    have table : s.nextEdge.resetEvent.invBox = drawnInvBox s.draws := by simp [hparam]
    rw [table]
    exact readInvBox_tableOf _ (BitVec.ofFin a)
  case draws => simp [hparam]

end Sys2Proof.Machine
end

section
/-! SUPPORT. The known-answer vector (95_test_vectors.md V1, V13). -/

namespace Sys2Proof.Machine

theorem encryptBlock_knownAnswer :
    encryptBlock 0x0f0e0d0c0b0a09080706050403020100 0xffeeddccbbaa99887766554433221100 =
      0x5ac5b47080b7cdd830047b6ad8e0c469 := by decide +kernel

/-- Settles O54: three of the values are computed; the plaintext is given back because `DEC` undoes
`ENC`. -/
theorem knownAnswers : Obligations.KnownAnswers := by
  obtain ⟨dec_enc, -⟩ := decryptUndoesEncrypt
  refine ⟨encryptBlock_knownAnswer, ?decrypt, by decide +kernel, by decide +kernel⟩
  case decrypt =>
    rw [← encryptBlock_knownAnswer]
    exact dec_enc _ _

end Sys2Proof.Machine
end
